-- ==== Sys2Proof/Word.lean ====
section
/-! DEFINITION. The words of FRX (00_scope.md rules R5, R10): every quantity is unsigned, bit 0 the least significant. -/

namespace Sys2Proof

/-- A stream byte, or a byte of the frame buffer (R5: byte width 8). -/
abbrev Byte := BitVec 8

/-- A checksum word, a length, a counter of payload bytes (R5: 16 bits). -/
abbrev Half := BitVec 16

/-- The bus data width (R5: 32 bits). -/
abbrev Word := BitVec 32

/-- A byte address of the bus (R5, R70: 17 bits). -/
abbrev BusAddr := BitVec 17

/-- One cycle's inputs, packed as 30_encoding.md rule R101 packs them (61 bits). -/
abbrev CycleWord := BitVec 61

end Sys2Proof
end

