-- ==== Sys2Proof/Syntax.lean ====
section
/-! DEFINITION. The operations a clock cycle's inputs can request: one constructor per row of spec/opcode_table.json
(30_encoding.md rules R100 to R106), and the inputs themselves (00_scope.md rule R7). -/

namespace Sys2Proof

/-- One operation of one channel. Operands (R105): the stream byte `d`, the byte address `a`, the write data `wd`. -/
inductive Instr where
  /-- format R, R270 -/
  | reset
  /-- format S, R162 -/
  | sIdle
  /-- format S, R163 -/
  | sByte (d : Byte)
  /-- format B, R200 -/
  | bIdle
  | rdCtrl
  | wrCtrl (wd : Word)
  | rdCmd
  | wrCmd (wd : Word)
  | rdStatus
  | wrStatus (wd : Word)
  | rdSync
  | wrSync (wd : Word)
  | rdRxInfo
  | wrRxInfo (wd : Word)
  | rdRxCsum
  | wrRxCsum (wd : Word)
  | rdIrqEn
  | wrIrqEn (wd : Word)
  | rdFb (a : BusAddr)
  | wrFb (a : BusAddr) (wd : Word)
  | rdRsvd (a : BusAddr)
  | wrRsvd (a : BusAddr) (wd : Word)
  | rdMisaligned (a : BusAddr)
  | wrMisaligned (a : BusAddr) (wd : Word)
  deriving DecidableEq, Repr

/-- The channel an operation is of (R102 to R104): reset, stream, bus. -/
inductive Format where
  | r
  | s
  | b
  deriving DecidableEq, Repr

/-- The inputs of one cycle, the record `CycleIn` of R7. -/
structure CycleIn where
  rst : Bool
  inValid : Bool
  inData : Byte
  busEn : Bool
  busWe : Bool
  busAddr : BusAddr
  busWdata : Word
  deriving DecidableEq, Repr

end Sys2Proof
end

