-- ==== Sys2Proof/WellFormed.lean ====
section
/-! DEFINITION. Which operations exist: the address operand of a bus operation lies where its row of 30_encoding.md rule R106
says, and a cycle is RESET alone or one bus and one stream operation (R100). -/

namespace Sys2Proof

/-- The channel of each operation (the column "format" of spec/opcode_table.json). -/
def Instr.format : Instr → Format
  | .reset => .r
  | .sIdle => .s
  | .sByte _ => .s
  | .bIdle => .b
  | .rdCtrl => .b
  | .wrCtrl _ => .b
  | .rdCmd => .b
  | .wrCmd _ => .b
  | .rdStatus => .b
  | .wrStatus _ => .b
  | .rdSync => .b
  | .wrSync _ => .b
  | .rdRxInfo => .b
  | .wrRxInfo _ => .b
  | .rdRxCsum => .b
  | .wrRxCsum _ => .b
  | .rdIrqEn => .b
  | .wrIrqEn _ => .b
  | .rdFb _ => .b
  | .wrFb _ _ => .b
  | .rdRsvd _ => .b
  | .wrRsvd _ _ => .b
  | .rdMisaligned _ => .b
  | .wrMisaligned _ _ => .b

/-- The FB window (R70): a multiple of 4 below 0x10000. -/
def wfFbAddr (a : BusAddr) : Bool := decide (a.toNat % 4 = 0) && decide (a.toNat < 0x10000)

/-- The reserved addresses (R70, R220): the multiples of 4 from 0x1001C on. -/
def wfRsvdAddr (a : BusAddr) : Bool := decide (a.toNat % 4 = 0) && decide (0x1001C ≤ a.toNat)

/-- A misaligned address (R75). -/
def wfMisalignedAddr (a : BusAddr) : Bool := decide (a.toNat % 4 ≠ 0)

/-- The operations that exist: only the rows with an address operand restrict it (R106). -/
def Instr.wf : Instr → Bool
  | .reset => true
  | .sIdle => true
  | .sByte _ => true
  | .bIdle => true
  | .rdCtrl => true
  | .wrCtrl _ => true
  | .rdCmd => true
  | .wrCmd _ => true
  | .rdStatus => true
  | .wrStatus _ => true
  | .rdSync => true
  | .wrSync _ => true
  | .rdRxInfo => true
  | .wrRxInfo _ => true
  | .rdRxCsum => true
  | .wrRxCsum _ => true
  | .rdIrqEn => true
  | .wrIrqEn _ => true
  | .rdFb a => wfFbAddr a
  | .wrFb a _ => wfFbAddr a
  | .rdRsvd a => wfRsvdAddr a
  | .wrRsvd a _ => wfRsvdAddr a
  | .rdMisaligned a => wfMisalignedAddr a
  | .wrMisaligned a _ => wfMisalignedAddr a

/-- The operations of one cycle, in the order the step performs them: RESET alone, or the bus operation and then the
stream operation (R100, R280). -/
def cycleWf : List Instr → Bool
  | [i] => i.format == .r && i.wf
  | [i, j] => i.format == .b && i.wf && j.format == .s && j.wf
  | _ => false

end Sys2Proof
end

