-- ==== Sys2Proof/Decode.lean ====
section
/-! DEFINITION. The decoder of 30_encoding.md rules R101 to R106, total on every cycle word, and the encoder of rule R111. -/

namespace Sys2Proof

/-! ## The cycle word (R101) -/

/-- The fields of a cycle word (R101). -/
def CycleIn.ofWord (c : CycleWord) : CycleIn where
  rst := c.getLsbD 60
  inValid := c.getLsbD 59
  inData := c.extractLsb' 51 8
  busEn := c.getLsbD 50
  busWe := c.getLsbD 49
  busAddr := c.extractLsb' 32 17
  busWdata := c.extractLsb' 0 32

/-- The cycle word of given inputs (R101): `r v d e w a wd`, `r` the most significant. -/
def CycleIn.toWord (c : CycleIn) : CycleWord :=
  BitVec.ofBool c.rst ++ BitVec.ofBool c.inValid ++ c.inData ++ BitVec.ofBool c.busEn ++ BitVec.ofBool c.busWe ++
    c.busAddr ++ c.busWdata

/-- All inputs low: the cycle word 0, `IDLE` (R111). -/
def CycleIn.idle : CycleIn where
  rst := false
  inValid := false
  inData := 0
  busEn := false
  busWe := false
  busAddr := 0
  busWdata := 0

/-! ## Decoding -/

/-- `a[1:0] = 00` (R104, R75). -/
def addrAligned (a : BusAddr) : Bool := a.extractLsb' 0 2 == 0#2

/-- `a[16]`: 0 the FB window, 1 the registers (R104). -/
def addrInRegisters (a : BusAddr) : Bool := a.getLsbD 16

/-- Format S (R103). -/
def decodeStream (c : CycleIn) : Instr := if c.inValid then .sByte c.inData else .sIdle

/-- The rows of R106 with `e = 1`, `w = 0`, in priority order. -/
def decodeRead (a : BusAddr) : Instr :=
  if a = 0x10000#17 then .rdCtrl
  else if a = 0x10004#17 then .rdCmd
  else if a = 0x10008#17 then .rdStatus
  else if a = 0x1000C#17 then .rdSync
  else if a = 0x10010#17 then .rdRxInfo
  else if a = 0x10014#17 then .rdRxCsum
  else if a = 0x10018#17 then .rdIrqEn
  else if !addrInRegisters a && addrAligned a then .rdFb a
  else if addrInRegisters a && addrAligned a then .rdRsvd a
  else .rdMisaligned a

/-- The rows of R106 with `e = 1`, `w = 1`, in priority order. -/
def decodeWrite (a : BusAddr) (wd : Word) : Instr :=
  if a = 0x10000#17 then .wrCtrl wd
  else if a = 0x10004#17 then .wrCmd wd
  else if a = 0x10008#17 then .wrStatus wd
  else if a = 0x1000C#17 then .wrSync wd
  else if a = 0x10010#17 then .wrRxInfo wd
  else if a = 0x10014#17 then .wrRxCsum wd
  else if a = 0x10018#17 then .wrIrqEn wd
  else if !addrInRegisters a && addrAligned a then .wrFb a wd
  else if addrInRegisters a && addrAligned a then .wrRsvd a wd
  else .wrMisaligned a wd

/-- Format B (R104, R106). -/
def decodeBus (c : CycleIn) : Instr :=
  if !c.busEn then .bIdle
  else if c.busWe then decodeWrite c.busAddr c.busWdata
  else decodeRead c.busAddr

/-- The operations of a cycle with given inputs, in the order the step performs them (R100, R280): RESET alone, or the bus
operation and the stream operation. -/
def decodeInputs (c : CycleIn) : List Instr :=
  if c.rst then [.reset] else [decodeBus c, decodeStream c]

/-- The operations of a cycle word. Total: every 61-bit value is a valid cycle word (R100). -/
def decodeCycle (c : CycleWord) : List Instr := decodeInputs (CycleIn.ofWord c)

/-- Why a number is no cycle word. -/
inductive DecodeError where
  /-- the number needs more than the 61 bits of R100 -/
  | notACycleWord
  deriving DecidableEq, Repr

/-- The cycle word with a given number; a number of more than 61 bits is rejected by name (log entry 10). -/
def cycleWordOfNat (n : Nat) : Except DecodeError CycleWord :=
  if n < 2 ^ 61 then .ok (BitVec.ofNat 61 n) else .error .notACycleWord

/-- The one operation a row of spec/opcode_table.json stands for in a word (log entry 9): RESET, else the bus operation if one
is requested, else the stream byte if one is offered. A word that requests nothing is both S_IDLE and B_IDLE: it is read as
S_IDLE where the row has the stream channel's bit 59, as B_IDLE where it has not. -/
def requestedOp (nbits : Nat) : List Instr → Option Instr
  | [i] => some i
  | [b, s] =>
    if b ≠ .bIdle then some b
    else if s ≠ .sIdle then some s
    else if nbits < 60 then some b
    else some s
  | _ => none

/-- What this decoder reads from a word numbered as spec/opcode_table.json numbers it: a cycle word is one number, bit 0 its
least significant (R101), and is stored nowhere, so the host's numbering is the spec's. -/
def decodeTableWord (nbits w : Nat) : Option Instr :=
  match cycleWordOfNat w with
  | .ok c => requestedOp nbits (decodeCycle c)
  | .error _ => none

/-! ## Encoding (R111) -/

/-- The inputs of a read of the address `a` with nothing else requested. -/
def readInputs (a : BusAddr) : CycleIn := { CycleIn.idle with busEn := true, busAddr := a }

/-- The inputs of a write with nothing else requested. -/
def writeInputs (a : BusAddr) (wd : Word) : CycleIn :=
  { CycleIn.idle with busEn := true, busWe := true, busAddr := a, busWdata := wd }

/-- The inputs that request one operation and nothing else (R101, R106). -/
def Instr.inputs : Instr → CycleIn
  | .reset => { CycleIn.idle with rst := true }
  | .sIdle => CycleIn.idle
  | .sByte d => { CycleIn.idle with inValid := true, inData := d }
  | .bIdle => CycleIn.idle
  | .rdCtrl => readInputs 0x10000
  | .wrCtrl wd => writeInputs 0x10000 wd
  | .rdCmd => readInputs 0x10004
  | .wrCmd wd => writeInputs 0x10004 wd
  | .rdStatus => readInputs 0x10008
  | .wrStatus wd => writeInputs 0x10008 wd
  | .rdSync => readInputs 0x1000C
  | .wrSync wd => writeInputs 0x1000C wd
  | .rdRxInfo => readInputs 0x10010
  | .wrRxInfo wd => writeInputs 0x10010 wd
  | .rdRxCsum => readInputs 0x10014
  | .wrRxCsum wd => writeInputs 0x10014 wd
  | .rdIrqEn => readInputs 0x10018
  | .wrIrqEn wd => writeInputs 0x10018 wd
  | .rdFb a => readInputs a
  | .wrFb a wd => writeInputs a wd
  | .rdRsvd a => readInputs a
  | .wrRsvd a wd => writeInputs a wd
  | .rdMisaligned a => readInputs a
  | .wrMisaligned a wd => writeInputs a wd

/-- What one operation contributes to its cycle's word (R111). -/
def encode (i : Instr) : CycleWord := i.inputs.toWord

/-- The word of a cycle: "the OR of its operations' contributions" (R111). -/
def encodeCycle (ops : List Instr) : CycleWord := ops.foldr (fun i w => encode i ||| w) 0

end Sys2Proof
end

