-- ==== Sys2Proof/Config.lean ====
section
/-! DEFINITION. What an implementation fixes (00_scope.md rule R5) and the free values (10_state.md rule R47, 00_scope.md rule R8). -/

namespace Sys2Proof

/-- The one open parameter of R5. It is carried by the state (log entry 4), so what is stated of every state holds of
every value of it. -/
structure Params where
  /-- SYNC_RESET: the reset value of the SYNC register (R42). -/
  syncReset : Word
  deriving DecidableEq, Repr

/-- The parameters with their default (R5: `0xDCC023C2`, the value every vector of 95_test_vectors.md assumes). -/
def Params.standard : Params where
  syncReset := 0xDCC023C2

/-- FREE VALUE (R47, 93_implementation_defined.md I2; log entry 5): the power-up byte of each frame buffer address, one draw
per byte, fixed for the run. Nothing constrains it. -/
opaque Config.fbDraw : Nat → Byte

/-- FREE VALUE (R8, "The host may drive any value on any input in any cycle"; log entry 1): the inputs of the cycle with this
number, when the state lists none. Nothing constrains it. -/
opaque Config.hostWord : Nat → CycleWord

end Sys2Proof
end

