-- ==== Sys2Proof/Machine/State.lean ====
section
/-! DEFINITION. The state of FRX (10_state.md rules R33 to R49) as plain data, the frame around one clock cycle, and the state
after reset (70_reset_and_hazards.md rules R270 to R272). -/

namespace Sys2Proof.Machine

/-- The parser state `st` (R33). -/
inductive ParserState where
  /-- 0: searching the stream for `SYNC ‖ SYNC` -/
  | hunt
  /-- 1: collecting the header bytes at frame offsets 8 to 13 -/
  | hdr
  /-- 2: collecting the payload -/
  | pay
  /-- 3: an accepted frame is held; no stream byte is taken -/
  | hold
  deriving DecidableEq, Repr

/-- Bytes of the frame buffer that a rule has written, as (address, byte), addresses strictly rising (log entry 6). -/
abbrev Memory := List Host.Cell

/-- The state elements of R49, exactly these. -/
structure Arch where
  /-- R33 -/
  st : ParserState
  /-- R34: the sync search window, the newest byte in bits 7:0 -/
  win : BitVec 64
  /-- R34: how many bytes of `win` are valid -/
  fill : BitVec 4
  /-- R35: header bytes taken since the sync pattern matched -/
  hcnt : BitVec 3
  /-- R36 -/
  hLen : Half
  /-- R36 -/
  hCsum : Half
  /-- R36 -/
  hId : Byte
  /-- R36 -/
  hFlags : Byte
  /-- R37: payload bytes taken in the current frame -/
  pcnt : Half
  /-- R38: the running one's-complement sum -/
  acc : Half
  /-- R39: CTRL.EN -/
  en : Bool
  /-- R42: SYNC -/
  sync : Word
  /-- R41, R51: STATUS.REJ -/
  rej : Bool
  /-- R45: IRQ_EN.READY_IE -/
  ieReady : Bool
  /-- R45: IRQ_EN.REJ_IE -/
  ieRej : Bool
  /-- R43: RX_INFO.LEN -/
  rxLen : Half
  /-- R43: RX_INFO.ID -/
  rxId : Byte
  /-- R43: RX_INFO.FLAGS -/
  rxFlags : Byte
  /-- R44: RX_CSUM.CSUM -/
  rxCsum : Half
  /-- R46: the frame buffer -/
  fb : Memory
  deriving DecidableEq, Repr

/-- The outputs of a cycle: the output ports of R32 and `accepted` (R7). -/
structure CycleOut where
  inReady : Bool
  accepted : Bool
  busRdata : Word
  busErr : Bool
  irq : Bool
  deriving DecidableEq, Repr

/-- The machine: the elements of R49 before the coming edge (`arch`, the rules' `x`) and after it (`next`, the rules' `x'`,
R11; log entry 2), its ports (R32) and the host's inputs still to come (log entry 1). -/
structure State where
  /-- the implementation parameters (R5); no step changes them -/
  params : Params
  /-- the elements before the edge -/
  arch : Arch
  /-- the elements after the edge; equal to `arch` between cycles -/
  next : Arch
  /-- the wire "CMD.ABORT takes effect this cycle" (R163, R280); low between cycles -/
  abort : Bool
  /-- the outputs of the cycle in progress, and between cycles of the last one -/
  out : CycleOut
  /-- the inputs of the coming cycles, the next one's first; after them the host's inputs are `Config.hostWord` -/
  inputs : List CycleWord
  /-- how many cycles have been clocked -/
  cycle : Nat
  deriving DecidableEq, Repr

/-- Why the machine stops. FRX itself never stops (R9): both reasons arise only in states the spec says no run reaches. -/
inductive Fault where
  /-- Raised by S_BYTE (a header byte taken with `hcnt` 6 or 7, values that "never occur", R35). Safe: the spec gives no
  effect, and the machine stops. -/
  | headerCountOutOfRange
  /-- Raised by S_BYTE (a payload byte taken with `pcnt` = 65535, for `FB[65535]`, which does not exist, R46). Safe: the
  address does not exist, and the machine stops. -/
  | frameBufferOutOfRange
  deriving DecidableEq, Repr

/-- Why an operation has no meaning. Every row of the opcode table has one, so no step answers with a refusal. -/
inductive Refusal where
  /-- Raised by an arm of `exec` whose operation is not modelled (none is left). Safe: the machine stops. -/
  | notModelled (mnemonic : String)
  deriving DecidableEq, Repr

/-- The elements after a reset edge (R49, R270), the frame buffer with no byte written (R47). -/
def Arch.reset (p : Params) : Arch where
  st := .hunt
  win := 0#64
  fill := 0#4
  hcnt := 0#3
  hLen := 0#16
  hCsum := 0#16
  hId := 0#8
  hFlags := 0#8
  pcnt := 0#16
  acc := 0#16
  en := false
  sync := p.syncReset
  rej := false
  ieReady := false
  ieRej := false
  rxLen := 0#16
  rxId := 0#8
  rxFlags := 0#8
  rxCsum := 0#16
  fb := []

/-- The outputs of a reset cycle (R270). DESIGN CHOICE, unsafe (log entry 3): `irq`, which R250 makes a function of the
unspecified state before the reset (R271), is 0. -/
def CycleOut.reset : CycleOut where
  inReady := false
  accepted := false
  busRdata := 0#32
  busErr := false
  irq := false

/-- The machine right after a reset edge (R271, R272), with no input placed. -/
def State.reset : State where
  params := Params.standard
  arch := Arch.reset Params.standard
  next := Arch.reset Params.standard
  abort := false
  out := CycleOut.reset
  inputs := []
  cycle := 0

end Sys2Proof.Machine
end

