-- ==== Sys2Proof/Machine/Flags.lean ====
section
/-! DEFINITION. The flags and the conditions FRX judges: READY (R51), `in_ready` (R160), `irq` (R250), the header domain check
(R172), the checksum test (R140). -/

namespace Sys2Proof.Machine

/-- READY, STATUS[4]: an accepted frame is held (R41, R51). -/
def readyFlag (a : Arch) : Bool := decide (a.st = .hold)

/-- `in_ready` in a cycle without reset (R160): `en ∧ (st ≠ HOLD)`. -/
def inReady (a : Arch) : Bool := a.en && !decide (a.st = .hold)

/-- The `irq` output (R250), from the state before the edge. -/
def irqLine (a : Arch) : Bool := (readyFlag a && a.ieReady) || (a.rej && a.ieRej)

/-- The flags byte of a data frame (R172). -/
def flagsData : Byte := 0x00#8

/-- The flags byte of an END frame (R172). -/
def flagsEnd : Byte := 0x40#8

/-- The flags byte of an ACK frame (R172). -/
def flagsAck : Byte := 0x80#8

/-- `hdr_ok(n, i, f)` (R172): the header domain check, its four conditions in the rule's order. -/
def hdrOk (n : Half) (i f : Byte) : Bool :=
  (i == 0x00#8 || i == 0x01#8) &&
  (f == flagsData || f == flagsEnd || f == flagsAck) &&
  (!(f == flagsEnd || f == flagsAck) || n == 0#16) &&
  (!(f == flagsData) || !(n == 0#16))

/-- The checksum test at the last byte of a frame (R140): `acc' = 0xFFFF`. -/
def checksumGood (acc1 : Half) : Bool := acc1 == 0xFFFF#16

end Sys2Proof.Machine
end

