-- ==== Sys2Proof/Machine/Ops.lean ====
section
/-! DEFINITION. The named operations over the frame buffer, the registers and the cycle. FRX has no trap entry and no return
from one (60_exceptions.md rules R248, R249); its one error response is `raiseBusError` (R241). -/

namespace Sys2Proof.Machine

/-! ## The frame buffer (R46, R47; log entries 5 and 6) -/

/-- How many bytes FB has (R5, R46): `FB[0]` to `FB[65534]`. -/
def fbSize : Nat := 65535

/-- What a rule has written at an address: no value where none has. -/
def Memory.read? : Memory → Nat → Option Byte
  | [], _ => none
  | (k, b) :: m, a => if a = k then some b else Memory.read? m a

/-- The byte `b` written at an address, the addresses kept strictly rising. -/
def Memory.write : Memory → Nat → Byte → Memory
  | [], a, b => [(a, b)]
  | (k, c) :: m, a, b =>
    if a < k then (a, b) :: (k, c) :: m
    else if a = k then (a, b) :: m
    else (k, c) :: Memory.write m a b

/-- Addresses strictly rising from `lo` on, all of them below `fbSize`. -/
def Memory.risingFrom : Nat → Memory → Bool
  | _, [] => true
  | lo, (k, _) :: m => decide (lo ≤ k) && decide (k < fbSize) && Memory.risingFrom (k + 1) m

/-- The canonical form: addresses strictly rising, each one an address of FB. No entry equals what an unlisted address reads
as, because that is no value (`Memory.read?` answers none), so equal memories are equal data (log entry 6). -/
def Memory.wf (m : Memory) : Bool := Memory.risingFrom 0 m

/-- `FB[i]` (R12, R46): the byte a rule wrote, or the address's power-up draw (R47). -/
def fbRead (m : Memory) (i : Nat) : Byte := (m.read? i).getD (Config.fbDraw i)

/-- One byte of the FB window (R218): the nonexistent byte `FB[65535]` reads as 0 (R74). -/
def fbWindowByte (m : Memory) (j : Nat) : Byte := if j < fbSize then fbRead m j else 0#8

/-- The word at FB-window byte address `p` (R74, R218): big-endian, `FB[p]` in bits 31:24. -/
def fbWord (m : Memory) (p : Nat) : Word :=
  fbWindowByte m p ++ fbWindowByte m (p + 1) ++ fbWindowByte m (p + 2) ++ fbWindowByte m (p + 3)

/-! ## One clock cycle (R280) -/

/-- The state elements change at the edge (R7, R11): `f` gives the elements after it. -/
def State.atEdge (s : State) (f : Arch → Arch) : State := { s with next := f s.next }

/-- The outputs of a bus access that completes (R200, R201, R216). -/
def State.busReply (s : State) (v : Word) : State := { s with out := { s.out with busRdata := v, busErr := false } }

/-- `raise BusError(a)` (R12, R241): `bus_err = 1`, `bus_rdata = 0`, no state effect; the address is recorded nowhere. -/
def State.raiseBusError (s : State) (_a : BusAddr) : State :=
  { s with out := { s.out with busRdata := 0#32, busErr := true } }

/-- The outputs of the stream channel (R160, R161): `offered` is `in_valid`. -/
def State.streamReply (s : State) (offered : Bool) : State :=
  { s with out := { s.out with inReady := inReady s.arch, accepted := offered && inReady s.arch } }

/-- The wire "CMD.ABORT takes effect this cycle" (R163, R280). -/
def State.driveAbort (s : State) (b : Bool) : State := { s with abort := b }

/-- A cycle begins: nothing has been written yet, every output is at its idle value, and `irq` is the function of the state
before the edge (R250). -/
def State.beginCycle (s : State) : State :=
  { s with
    next := s.arch
    abort := false
    out := { inReady := false, accepted := false, busRdata := 0#32, busErr := false, irq := irqLine s.arch } }

/-- The rising edge: every element takes the value its rules gave it (R7, R11). -/
def State.clockEdge (s : State) : State := { s with arch := s.next, abort := false }

/-! ## The host's inputs (R6, R8; log entry 1) -/

/-- The inputs of the coming cycle: the first placed word, or where none is placed a free value. -/
def State.nextWord (s : State) : CycleWord :=
  match s.inputs with
  | w :: _ => w
  | [] => Config.hostWord s.cycle

/-- The coming cycle's inputs are sampled. -/
def State.sampleInputs (s : State) : State := { s with inputs := s.inputs.tail, cycle := s.cycle + 1 }

/-- The coming cycle's inputs are those of the word numbered `w` (R101; log entry 10). -/
def State.driveWord (s : State) (w : Nat) : State := { s with inputs := BitVec.ofNat 61 w :: s.inputs.tail }

/-- The host's inputs of the coming cycles are these words. -/
def State.withInputs (s : State) (ws : List CycleWord) : State := { s with inputs := ws }

/-! ## Outcomes -/

/-- One outcome, then the next operation of the same cycle. -/
def andThen (o : Host.Outcome State Fault Refusal) (f : State → Host.Outcome State Fault Refusal) :
    Host.Outcome State Fault Refusal :=
  match o with
  | .next s => f s
  | .fault r => .fault r
  | .refused r => .refused r

end Sys2Proof.Machine
end

