-- ==== Sys2Proof/Machine/Operands.lean ====
section
/-! DEFINITION. The operand forms of 30_encoding.md rule R105: the values the registers read as (10_state.md rules R39 to R45),
the fields a register write picks out of `wd`, the fields of a stream byte's destination. -/

namespace Sys2Proof.Machine

/-- The code of a parser state (R33). -/
def ParserState.code : ParserState → BitVec 2
  | .hunt => 0#2
  | .hdr => 1#2
  | .pay => 2#2
  | .hold => 3#2

/-! ## Register values (42_bus.md rules R202 to R209) -/

/-- CTRL (R39, R202): `zext_32(en)`. -/
def ctrlValue (a : Arch) : Word := (BitVec.ofBool a.en).setWidth 32

/-- CMD (R40, R204) holds no state. -/
def cmdValue (_a : Arch) : Word := 0#32

/-- STATUS (R41, R209): `zext_32({rej, (st = HOLD), 0b00, st})`. -/
def statusValue (a : Arch) : Word :=
  (BitVec.ofBool a.rej ++ BitVec.ofBool (readyFlag a) ++ 0b00#2 ++ a.st.code).setWidth 32

/-- SYNC (R42, R205). -/
def syncValue (a : Arch) : Word := a.sync

/-- RX_INFO (R43, R206): `{rx_len, rx_id, rx_flags}`. -/
def rxInfoValue (a : Arch) : Word := a.rxLen ++ a.rxId ++ a.rxFlags

/-- RX_CSUM (R44, R207): `zext_32(rx_csum)`. -/
def rxCsumValue (a : Arch) : Word := a.rxCsum.setWidth 32

/-- IRQ_EN (R45, R208): `zext_32({ie_rej, ie_ready})`. -/
def irqEnValue (a : Arch) : Word := (BitVec.ofBool a.ieRej ++ BitVec.ofBool a.ieReady).setWidth 32

/-! ## Fields of the write data (R105) -/

/-- CTRL.EN (R39). -/
def wdEn (wd : Word) : Bool := wd.getLsbD 0

/-- CMD.RELEASE (R40). -/
def wdRelease (wd : Word) : Bool := wd.getLsbD 0

/-- CMD.ABORT (R40). -/
def wdAbort (wd : Word) : Bool := wd.getLsbD 1

/-- STATUS.REJ, write 1 to clear (R41). -/
def wdClearRej (wd : Word) : Bool := wd.getLsbD 5

/-- IRQ_EN.READY_IE (R45). -/
def wdReadyIe (wd : Word) : Bool := wd.getLsbD 0

/-- IRQ_EN.REJ_IE (R45). -/
def wdRejIe (wd : Word) : Bool := wd.getLsbD 1

/-- The first byte a FB word covers: `FB[a[15:0]]` (R105). -/
def fbIndex (a : BusAddr) : Nat := (a.extractLsb' 0 16).toNat

/-! ## Stream operands -/

/-- `v[15:8] <- b` (R168, R169). -/
def setHigh (v : Half) (b : Byte) : Half := b ++ v.extractLsb' 0 8

/-- `v[7:0] <- b` (R168, R169). -/
def setLow (v : Half) (b : Byte) : Half := v.extractLsb' 8 8 ++ b

/-- `((win << 8) | b) & (2^64 − 1)` (R165). -/
def shiftWindow (win : BitVec 64) (b : Byte) : BitVec 64 := (win <<< 8) ||| b.setWidth 64

/-- The search pattern `{sync, sync}` (R165). -/
def syncPattern (sync : Word) : BitVec 64 := sync ++ sync

end Sys2Proof.Machine
end

