-- ==== Sys2Proof/Machine/BusReads.lean ====
section
/-! DEFINITION. B_IDLE and the register reads (42_bus.md rules R200 to R209): a read drives `bus_rdata` from the state before the
edge and changes no element (R201, R78). -/

namespace Sys2Proof.Machine

/-- B_IDLE (R200). -/
def execBIdle (s : State) : Host.Outcome State Fault Refusal := .next (s.busReply 0#32)

/-- RD_CTRL (R202). -/
def execRdCtrl (s : State) : Host.Outcome State Fault Refusal := .next (s.busReply (ctrlValue s.arch))

/-- RD_CMD (R204). -/
def execRdCmd (s : State) : Host.Outcome State Fault Refusal := .next (s.busReply (cmdValue s.arch))

/-- RD_STATUS (R209). -/
def execRdStatus (s : State) : Host.Outcome State Fault Refusal := .next (s.busReply (statusValue s.arch))

/-- RD_SYNC (R205). -/
def execRdSync (s : State) : Host.Outcome State Fault Refusal := .next (s.busReply (syncValue s.arch))

/-- RD_RX_INFO (R206). -/
def execRdRxInfo (s : State) : Host.Outcome State Fault Refusal := .next (s.busReply (rxInfoValue s.arch))

/-- RD_RX_CSUM (R207). -/
def execRdRxCsum (s : State) : Host.Outcome State Fault Refusal := .next (s.busReply (rxCsumValue s.arch))

/-- RD_IRQ_EN (R208). -/
def execRdIrqEn (s : State) : Host.Outcome State Fault Refusal := .next (s.busReply (irqEnValue s.arch))

end Sys2Proof.Machine
end

