-- ==== Sys2Proof/Machine/BusWindow.lean ====
section
/-! DEFINITION. The accesses with an address operand (42_bus.md rules R218 to R221): the frame buffer window, the reserved
addresses, the misaligned accesses. -/

namespace Sys2Proof.Machine

/-- RD_FB (R218): the big-endian word, from the bytes before the edge. -/
def execRdFb (a : BusAddr) (s : State) : Host.Outcome State Fault Refusal :=
  .next (s.busReply (fbWord s.arch.fb (fbIndex a)))

/-- WR_FB (R219): BusError, BE_FBWRITE (R241). -/
def execWrFb (a : BusAddr) (_wd : Word) (s : State) : Host.Outcome State Fault Refusal := .next (s.raiseBusError a)

/-- RD_RSVD (R220): reads 0. -/
def execRdRsvd (_a : BusAddr) (s : State) : Host.Outcome State Fault Refusal := .next (s.busReply 0#32)

/-- WR_RSVD (R220): ignored. -/
def execWrRsvd (_a : BusAddr) (_wd : Word) (s : State) : Host.Outcome State Fault Refusal := .next (s.busReply 0#32)

/-- RD_MISALIGNED (R221): BusError, BE_ALIGN (R241). -/
def execRdMisaligned (a : BusAddr) (s : State) : Host.Outcome State Fault Refusal := .next (s.raiseBusError a)

/-- WR_MISALIGNED (R221): BusError, BE_ALIGN (R241). -/
def execWrMisaligned (a : BusAddr) (_wd : Word) (s : State) : Host.Outcome State Fault Refusal :=
  .next (s.raiseBusError a)

end Sys2Proof.Machine
end

