-- ==== Sys2Proof/Machine/BusWrites.lean ====
section
/-! DEFINITION. The register writes (42_bus.md rules R203, R210 to R216): `bus_rdata = 0`, `bus_err = 0`, the effect at the edge,
reserved bits of `wd` ignored. -/

namespace Sys2Proof.Machine

/-- WR_CTRL (R203): `en <- wd[0]`. -/
def execWrCtrl (wd : Word) (s : State) : Host.Outcome State Fault Refusal :=
  .next ((s.busReply 0#32).atEdge fun n => { n with en := wdEn wd })

/-- `st <- HUNT; win <- 0; fill <- 0` (R212). -/
def backToHunt (n : Arch) : Arch := { n with st := .hunt, win := 0#64, fill := 0#4 }

/-- A CMD.RELEASE takes effect (R212): `wd[0] ∧ (st = HOLD)`. -/
def releaseEffective (wd : Word) (a : Arch) : Bool := wdRelease wd && decide (a.st = .hold)

/-- A CMD.ABORT takes effect (R212): `wd[1] ∧ (st ≠ HOLD)`. -/
def abortEffective (wd : Word) (a : Arch) : Bool := wdAbort wd && !decide (a.st = .hold)

/-- WR_CMD (R212): RELEASE frees a held frame, ABORT discards what is in progress and drops the byte of its own cycle. -/
def execWrCmd (wd : Word) (s : State) : Host.Outcome State Fault Refusal :=
  let s1 := (s.busReply 0#32).driveAbort (abortEffective wd s.arch)
  if releaseEffective wd s.arch || abortEffective wd s.arch then .next (s1.atEdge backToHunt) else .next s1

/-- WR_STATUS (R210): `rej <- rej ∧ ¬wd[5]`, the term `reject_this_cycle` being applied after it by the stream operation of the
same cycle (R246, R280). -/
def execWrStatus (wd : Word) (s : State) : Host.Outcome State Fault Refusal :=
  .next ((s.busReply 0#32).atEdge fun n => { n with rej := s.arch.rej && !wdClearRej wd })

/-- WR_SYNC (R211): `sync <- wd`. -/
def execWrSync (wd : Word) (s : State) : Host.Outcome State Fault Refusal :=
  .next ((s.busReply 0#32).atEdge fun n => { n with sync := wd })

/-- WR_RX_INFO (R213): ignored. -/
def execWrRxInfo (_wd : Word) (s : State) : Host.Outcome State Fault Refusal := .next (s.busReply 0#32)

/-- WR_RX_CSUM (R214): ignored. -/
def execWrRxCsum (_wd : Word) (s : State) : Host.Outcome State Fault Refusal := .next (s.busReply 0#32)

/-- WR_IRQ_EN (R215): `ie_ready <- wd[0]; ie_rej <- wd[1]`. -/
def execWrIrqEn (wd : Word) (s : State) : Host.Outcome State Fault Refusal :=
  .next ((s.busReply 0#32).atEdge fun n => { n with ieReady := wdReadyIe wd, ieRej := wdRejIe wd })

end Sys2Proof.Machine
end

