-- ==== Sys2Proof/Machine/ResetChannel.lean ====
section
/-! DEFINITION. RESET (70_reset_and_hazards.md rule R270). -/

namespace Sys2Proof.Machine

/-- Every element except FB takes its reset value (R270, R49). -/
def resetElements (p : Params) (a : Arch) : Arch where
  st := .hunt
  win := 0#64
  fill := 0#4
  hcnt := 0#3
  hLen := 0#16
  hCsum := 0#16
  hId := 0#8
  hFlags := 0#8
  pcnt := 0#16
  acc := 0#16
  en := false
  sync := p.syncReset
  rej := false
  ieReady := false
  ieRej := false
  rxLen := 0#16
  rxId := 0#8
  rxFlags := 0#8
  rxCsum := 0#16
  fb := a.fb

/-- RESET (R270): no byte is taken (`in_ready = 0`) and the bus gets `bus_rdata = 0`, `bus_err = 0`; `irq` stays the function of
the state before the edge. -/
def execReset (s : State) : Host.Outcome State Fault Refusal :=
  .next { s.atEdge (resetElements s.params) with
    out := { s.out with inReady := false, accepted := false, busRdata := 0#32, busErr := false } }

end Sys2Proof.Machine
end

