-- ==== Sys2Proof/Machine/Checksum.lean ====
section
/-! DEFINITION. The checksum functions of 40_checksum.md (rules R131 to R138, R141), and the reference frame builders of R137
and R181, which FRX does not perform. -/

namespace Sys2Proof.Machine

/-- `ocadd(a, v)` (R131): one's-complement addition, one step of end-around carry. -/
def ocadd (a v : Half) : Half :=
  let t := a.toNat + v.toNat
  BitVec.ofNat 16 ((t &&& 0xFFFF) + (t >>> 16))

/-- The loop of `fold` (R132) with a bound on its iterations. -/
def foldLoop : Nat → Nat → Nat
  | 0, s => s
  | k + 1, s => if s > 0xFFFF then foldLoop k ((s &&& 0xFFFF) + (s >>> 16)) else s

/-- `fold(s)` (R132). "each iteration with `s > 0xFFFF` strictly decreases `s`", so `s` iterations are enough. -/
def fold (s : Nat) : Nat := foldLoop s s

/-- `wordsum(bs)` (R133): the exact sum of the 16-bit big-endian words, an odd last byte padded with one zero byte. -/
def wordsum : List Byte → Nat
  | [] => 0
  | [b] => b.toNat <<< 8
  | b :: c :: bs => ((b.toNat <<< 8) + c.toNat) + wordsum bs

/-- `compute(bs)` (R134): the complement of the folded sum, 16 bits. -/
def compute (bs : List Byte) : Half := ~~~(BitVec.ofNat 16 (fold (wordsum bs)))

/-- `verify(bs)` (R135). -/
def verify (bs : List Byte) : Bool := compute bs == 0#16

/-- `contrib(k, b)` (R138): the byte at an even frame offset is the high byte of its word. -/
def contrib (k : Nat) (b : Byte) : Half :=
  if k % 2 = 0 then b ++ 0#8 else 0#8 ++ b

/-- The accumulator of R139 from a start value `a`, over bytes whose first is at frame offset `k`. -/
def accumulate (k : Nat) (a : Half) : List Byte → Half
  | [] => a
  | b :: bs => accumulate (k + 1) (ocadd a (contrib k b)) bs

/-- `sacc(SYNC)` (R141): the accumulator after the 8 sync bytes. -/
def sacc (sync : Word) : Half :=
  let hi : Half := sync.extractLsb' 16 16
  let lo : Half := sync.extractLsb' 0 16
  ocadd (ocadd (ocadd (ocadd 0#16 hi) lo) hi) lo

/-! ## Reference frame construction (R137): for testbenches, not performed by FRX -/

/-- The two bytes of a 16-bit field, big-endian (R71). -/
def halfBytes (v : Half) : List Byte := [v.extractLsb' 8 8, v.extractLsb' 0 8]

/-- The four bytes of a 32-bit field, big-endian (R71). -/
def wordBytes (v : Word) : List Byte :=
  [v.extractLsb' 24 8, v.extractLsb' 16 8, v.extractLsb' 8 8, v.extractLsb' 0 8]

/-- `header(s, n, c, i, f)` (R137): the 14 header bytes. -/
def header (s : Word) (n c : Half) (i f : Byte) : List Byte :=
  wordBytes s ++ wordBytes s ++ halfBytes n ++ halfBytes c ++ [i, f]

/-- A frame with bytes 10 and 11 replaced (R137). -/
def withChecksum (frame : List Byte) (c : Half) : List Byte :=
  frame.take 10 ++ halfBytes c ++ frame.drop 12

/-- `apply(F)` (R137, 90_conflicts.md C2): the checksum is computed with its field zero. DESIGN CHOICE (log entry 13): R137 applies it to
frames, which have bytes 10 and 11; a string shorter than 12 bytes gets the checksum appended to its first 10. -/
def applyChecksum (frame : List Byte) : List Byte :=
  withChecksum frame (compute (withChecksum frame 0#16))

/-- A data frame (R137, source §4.2 `build_data_frame`), for `1 ≤ len(P) ≤ 65535`. DESIGN CHOICE (log entry 13): R137 gives no data frame
for another payload; here its length field is `len(P)` modulo `2^16`, so 0 for the empty payload. -/
def dataFrame (s : Word) (i : Byte) (payload : List Byte) : List Byte :=
  applyChecksum (header s (BitVec.ofNat 16 payload.length) 0#16 i 0x00#8 ++ payload)

/-- A control frame (R137, source §4.2 `build_control_frame`): `f` is `0x40` (END) or `0x80`
(ACK). DESIGN CHOICE (log entry 13): R137 gives no control frame for another `f`; here `f` is put into the flags field as it is. -/
def controlFrame (s : Word) (i f : Byte) : List Byte :=
  applyChecksum (header s 0#16 0#16 i f)

/-- The chunks of at most `n` bytes of a byte string, with a bound on their number. -/
def chunks (n : Nat) : Nat → List Byte → List (List Byte)
  | 0, _ => []
  | _ + 1, [] => []
  | k + 1, b :: bs => (b :: bs).take n :: chunks n k ((b :: bs).drop n)

/-- The frames of given data chunks, ids alternating from `i`, and one END frame (R181). -/
def framesOf (s : Word) (i : Byte) : List (List Byte) → List (List Byte)
  | [] => [controlFrame s i 0x40#8]
  | p :: ps => dataFrame s i p :: framesOf s (i ^^^ 1#8) ps

/-- `segment(P)` (R181): a data frame per chunk of at most 65535 bytes with ids 0, 1, 0, ..., then one END frame. -/
def segment (s : Word) (payload : List Byte) : List (List Byte) :=
  framesOf s 0#8 (chunks 65535 payload.length payload)

end Sys2Proof.Machine
end

