-- ==== Sys2Proof/Machine/Parser.lean ====
section
/-! DEFINITION. What a taken stream byte does (41_stream.md rules R165 to R177). `pre` holds the elements before the edge (the
rules' names without a prime); each function gives the elements after it, `nx` holding those of the rules already applied. -/

namespace Sys2Proof.Machine

/-- `REJECT` (R176). -/
def reject (nx : Arch) : Arch := { nx with st := .hunt, rej := true, win := 0#64, fill := 0#4 }

/-- `ACCEPT(f)` (R177). -/
def accept (f : Byte) (pre nx : Arch) : Arch :=
  { nx with
    st := .hold
    rxLen := pre.hLen
    rxCsum := pre.hCsum
    rxId := pre.hId
    rxFlags := f
    win := 0#64
    fill := 0#4 }

/-- `sync_found()` (R166). -/
def syncFound (pre nx : Arch) : Arch :=
  { nx with st := .hdr, hcnt := 0#3, acc := sacc pre.sync, win := 0#64, fill := 0#4 }

/-- `hunt_byte(b)` (R165). -/
def huntByte (b : Byte) (pre nx : Arch) : Arch :=
  let win1 := shiftWindow pre.win b
  let fill1 := min (pre.fill.toNat + 1) 8
  if fill1 = 8 ∧ win1 = syncPattern pre.sync then syncFound pre nx
  else { nx with win := win1, fill := BitVec.ofNat 4 fill1 }

/-- `acc` with the byte `b` at frame offset `k` added (R138, R139). -/
def accWith (k : Nat) (b : Byte) (pre : Arch) : Half := ocadd pre.acc (contrib k b)

/-- `complete_frame(acc1)` (R174), and the judgement of a control frame at its flags byte (R171): ACCEPT(f) or REJECT. -/
def judgeChecksum (acc1 : Half) (f : Byte) (pre nx : Arch) : Arch :=
  if checksumGood acc1 then accept f pre nx else reject nx

/-- The header is judged at its flags byte (R171). -/
def flagsByte (b : Byte) (pre nx : Arch) : Arch :=
  let acc1 := accWith 13 b pre
  let nx := { nx with acc := acc1, hFlags := b }
  if hdrOk pre.hLen pre.hId b then
    if pre.hLen = 0#16 then judgeChecksum acc1 b pre nx
    else { nx with st := .pay, pcnt := 0#16 }
  else reject nx

/-- `hdr_byte(b)` (R168 to R171), by the header bytes already taken. `hcnt` 6 and 7 "never occur" (R35): the model stops
(log entry 7). -/
def hdrByte (b : Byte) (pre nx : Arch) : Except Fault Arch :=
  match pre.hcnt.toNat with
  | 0 => .ok { nx with acc := accWith 8 b pre, hLen := setHigh pre.hLen b, hcnt := 1#3 }
  | 1 => .ok { nx with acc := accWith 9 b pre, hLen := setLow pre.hLen b, hcnt := 2#3 }
  | 2 => .ok { nx with acc := accWith 10 b pre, hCsum := setHigh pre.hCsum b, hcnt := 3#3 }
  | 3 => .ok { nx with acc := accWith 11 b pre, hCsum := setLow pre.hCsum b, hcnt := 4#3 }
  | 4 => .ok { nx with acc := accWith 12 b pre, hId := b, hcnt := 5#3 }
  | 5 => .ok (flagsByte b pre nx)
  | _ => .error .headerCountOutOfRange

/-- `pay_byte(b)` (R173, R174). `FB[65535]` does not exist (R46), and no run writes it (R173): the model stops (log entry 7). -/
def payByte (b : Byte) (pre nx : Arch) : Except Fault Arch :=
  let p := pre.pcnt.toNat
  let acc1 := accWith (14 + p) b pre
  if p < fbSize then
    let nx := { nx with fb := nx.fb.write p b, acc := acc1, pcnt := pre.pcnt + 1#16 }
    if p + 1 = pre.hLen.toNat then .ok (judgeChecksum acc1 pre.hFlags pre nx) else .ok nx
  else .error .frameBufferOutOfRange

/-- What a taken byte does, by the parser state (R163). "st = HOLD cannot take a byte (rule R160)". -/
def streamEffect (b : Byte) (pre nx : Arch) : Except Fault Arch :=
  match pre.st with
  | .hunt => .ok (huntByte b pre nx)
  | .hdr => hdrByte b pre nx
  | .pay => payByte b pre nx
  | .hold => .ok nx

end Sys2Proof.Machine
end

