-- ==== Sys2Proof/Machine/StreamChannel.lean ====
section
/-! DEFINITION. The stream channel's operations S_IDLE and S_BYTE (41_stream.md rules R160 to R163). -/

namespace Sys2Proof.Machine

/-- S_IDLE (R162): no byte is offered, and no element changes. -/
def execSIdle (s : State) : Host.Outcome State Fault Refusal := .next (s.streamReply false)

/-- S_BYTE (R163): nothing when the byte is not taken (R161) or CMD.ABORT takes effect this cycle (the byte is taken and
dropped, R212); else what the parser state does with it. -/
def execSByte (d : Byte) (s : State) : Host.Outcome State Fault Refusal :=
  if inReady s.arch && !s.abort then
    match streamEffect d s.arch s.next with
    | .ok a => .next ((s.streamReply true).atEdge fun _ => a)
    | .error f => .fault f
  else .next (s.streamReply true)

end Sys2Proof.Machine
end

