-- ==== Sys2Proof/Machine/Dispatch.lean ====
section
/-! DEFINITION. What each operation does, one arm per row of spec/opcode_table.json. -/

namespace Sys2Proof.Machine

-- One operation of a cycle: it reads the elements before the edge (`arch`) and gives those after it (`next`).
def exec (i : Instr) (s : State) : Host.Outcome State Fault Refusal :=
  match i with
  | .reset => Sys2Proof.Machine.execReset s
  | .sIdle => Sys2Proof.Machine.execSIdle s
  | .sByte d => Sys2Proof.Machine.execSByte d s
  | .bIdle => Sys2Proof.Machine.execBIdle s
  | .rdCtrl => Sys2Proof.Machine.execRdCtrl s
  | .wrCtrl wd => Sys2Proof.Machine.execWrCtrl wd s
  | .rdCmd => Sys2Proof.Machine.execRdCmd s
  | .wrCmd wd => Sys2Proof.Machine.execWrCmd wd s
  | .rdStatus => Sys2Proof.Machine.execRdStatus s
  | .wrStatus wd => Sys2Proof.Machine.execWrStatus wd s
  | .rdSync => Sys2Proof.Machine.execRdSync s
  | .wrSync wd => Sys2Proof.Machine.execWrSync wd s
  | .rdRxInfo => Sys2Proof.Machine.execRdRxInfo s
  | .wrRxInfo wd => Sys2Proof.Machine.execWrRxInfo wd s
  | .rdRxCsum => Sys2Proof.Machine.execRdRxCsum s
  | .wrRxCsum wd => Sys2Proof.Machine.execWrRxCsum wd s
  | .rdIrqEn => Sys2Proof.Machine.execRdIrqEn s
  | .wrIrqEn wd => Sys2Proof.Machine.execWrIrqEn wd s
  | .rdFb a => Sys2Proof.Machine.execRdFb a s
  | .wrFb a wd => Sys2Proof.Machine.execWrFb a wd s
  | .rdRsvd a => Sys2Proof.Machine.execRdRsvd a s
  | .wrRsvd a wd => Sys2Proof.Machine.execWrRsvd a wd s
  | .rdMisaligned a => Sys2Proof.Machine.execRdMisaligned a s
  | .wrMisaligned a wd => Sys2Proof.Machine.execWrMisaligned a wd s

end Sys2Proof.Machine
end

