-- ==== Sys2Proof/Machine/Step.lean ====
section
/-! DEFINITION. One clock cycle (70_reset_and_hazards.md rule R280): the inputs are sampled and decoded, the cycle's operations
are performed, the bus operation first, and the edge takes place. -/

namespace Sys2Proof.Machine

/-- The operations of one cycle, one after the other. -/
def runOps : List Instr → State → Host.Outcome State Fault Refusal
  | [], s => .next s
  | i :: is, s => andThen (exec i s) (runOps is)

/-- One cycle with given operations, up to and including its edge (R280). -/
def runCycle (ops : List Instr) (s : State) : Host.Outcome State Fault Refusal :=
  andThen (runOps ops s.beginCycle) fun t => .next t.clockEdge

/-- One step: one rising edge of `clk` and the inputs sampled at it (R6, R7). -/
def step (s : State) : Host.Outcome State Fault Refusal :=
  runCycle (decodeCycle s.nextWord) s.sampleInputs

/-- The state whose coming cycle has the inputs of the word numbered `w` (spec/opcode_table.json numbers a cycle word as R101
does, and every word has 61 bits whatever `nbits`, R108). -/
def State.withFetchWord (s : State) (_nbits w : Nat) : State := s.driveWord w

end Sys2Proof.Machine
end

