-- ==== Sys2Proof/Machine/Script.lean ====
section
/-! DEFINITION. The test-program syntax of 30_encoding.md rules R109 to R111: what a host drives line by line. -/

namespace Sys2Proof.Machine

/-- The register names of R109. -/
inductive RegName where
  | ctrl
  | cmd
  | status
  | sync
  | rxInfo
  | rxCsum
  | irqEn
  deriving DecidableEq, Repr

/-- `<loc>` of R109: a register, `FB+<n>`, or a numeric 17-bit address. -/
inductive Loc where
  | reg (r : RegName)
  | fb (n : BitVec 16)
  | addr (a : BusAddr)
  deriving DecidableEq, Repr

/-- `RD <loc>` or `WR <loc>, <v>` (R109). -/
inductive BusLine where
  | rd (l : Loc)
  | wr (l : Loc) (v : Word)
  deriving DecidableEq, Repr

/-- A basic line of R109: one cycle. -/
inductive Line where
  | reset
  | idle
  | byte (b : Byte)
  | bus (x : BusLine)
  | byteBus (b : Byte) (x : BusLine)
  deriving DecidableEq, Repr

/-- The byte address of a register (10_state.md rules R39 to R45). -/
def RegName.busAddr : RegName → BusAddr
  | .ctrl => 0x10000
  | .cmd => 0x10004
  | .status => 0x10008
  | .sync => 0x1000C
  | .rxInfo => 0x10010
  | .rxCsum => 0x10014
  | .irqEn => 0x10018

/-- The byte address of a `<loc>` (R109). -/
def Loc.busAddr : Loc → BusAddr
  | .reg r => RegName.busAddr r
  | .fb n => n.setWidth 17
  | .addr a => a

/-- `BYTE b` contributes `(1 << 59) | (b << 51)` (R111). -/
def byteBits (b : Byte) : CycleWord := (1#61 <<< 59) ||| (b.setWidth 61 <<< 51)

/-- `RD x` contributes `(1 << 50) | (x << 32)`, `WR x, v` contributes `(1 << 50) | (1 << 49) | (x << 32) | v` (R111). -/
def BusLine.bits : BusLine → CycleWord
  | .rd l => (1#61 <<< 50) ||| (l.busAddr.setWidth 61 <<< 32)
  | .wr l v => (1#61 <<< 50) ||| (1#61 <<< 49) ||| (l.busAddr.setWidth 61 <<< 32) ||| v.setWidth 61

/-- The cycle word of a basic line (R111). -/
def Line.word : Line → CycleWord
  | .reset => 1#61 <<< 60
  | .idle => 0
  | .byte b => byteBits b
  | .bus x => x.bits
  | .byteBus b x => byteBits b ||| x.bits

/-- The pseudo-instructions of R110 with a fixed expansion (PUSH and WAIT_READY are host loops, Machine/HostLoops.lean). -/
inductive Pseudo where
  | line (l : Line)
  | idle (n : Nat)
  | bytes (bs : List Byte)
  | frame (sync : Option Word) (i f : Byte) (payload : List Byte) (csum : Option Half)
  | enable
  | disable
  | release
  | abort
  | clrRej
  deriving DecidableEq, Repr

/-- The bytes of a `FRAME` (R110): `apply` of the header and payload, or a given checksum field instead; the sync constant defaults to
the parameter `SYNC_RESET`. DESIGN CHOICE (log entry 13): for a payload of more than 65535 bytes, which no length field can tell, the
field is the payload length modulo `2^16`. -/
def frameBytes (p : Params) (sync : Option Word) (i f : Byte) (payload : List Byte) (csum : Option Half) : List Byte :=
  let frame (c : Half) := header (sync.getD p.syncReset) (BitVec.ofNat 16 payload.length) c i f ++ payload
  match csum with
  | none => applyChecksum (frame 0)
  | some c => frame c

/-- The expansions of R110, on an FRX with the parameters `p`. -/
def Pseudo.expand (p : Params) : Pseudo → List Line
  | .line l => [l]
  | .idle n => List.replicate n .idle
  | .bytes bs => bs.map .byte
  | .frame sync i f payload csum => (frameBytes p sync i f payload csum).map .byte
  | .enable => [.bus (.wr (.reg .ctrl) 1)]
  | .disable => [.bus (.wr (.reg .ctrl) 0)]
  | .release => [.bus (.wr (.reg .cmd) 1)]
  | .abort => [.bus (.wr (.reg .cmd) 2)]
  | .clrRej => [.bus (.wr (.reg .status) 0x20)]

/-- The cycle words of a test program (R109, R111), on an FRX with the parameters `p`. -/
def scriptWords (p : Params) (ps : List Pseudo) : List CycleWord := (ps.flatMap (Pseudo.expand p)).map Line.word

end Sys2Proof.Machine
end

