-- ==== Sys2Proof/Machine/HostLoops.lean ====
section
/-! DEFINITION. The two unbounded pseudo-instructions of 30_encoding.md rule R110, PUSH and WAIT_READY: "host loops, not FRX
operations", here with a bound on the cycles the host spends (log entry 11). -/

namespace Sys2Proof.Machine

/-- One cycle with a given basic line, before the inputs already placed. -/
def stepLine (l : Line) (s : State) : Host.Outcome State Fault Refusal := step (s.withInputs (l.word :: s.inputs))

/-- `PUSH <b>` (R110): `BYTE <b>` repeated until a cycle in which `in_ready` is 1. -/
def pushByte (b : Byte) : Nat → State → Host.Outcome State Fault Refusal
  | 0, s => .next s
  | k + 1, s => andThen (stepLine (.byte b) s) fun t => if t.out.inReady then .next t else pushByte b k t

/-- `WAIT_READY` (R110): `RD STATUS` repeated until a read returns bit 4 set. -/
def waitReady : Nat → State → Host.Outcome State Fault Refusal
  | 0, s => .next s
  | k + 1, s =>
    andThen (stepLine (.bus (.rd (.reg .status))) s) fun t => if t.out.busRdata.getLsbD 4 then .next t else waitReady k t

end Sys2Proof.Machine
end

