-- ==== Sys2Proof/Machine/OpcodeTable.lean ====
section
/-! DEFINITION. spec/opcode_table.json, row by row: the mask and pattern of each operation over the 61-bit cycle word. -/

namespace Sys2Proof.Machine

/-- A row of spec/opcode_table.json. -/
structure OpcodeRow where
  mnemonic : String
  mask : CycleWord
  pattern : CycleWord
  deriving DecidableEq, Repr

/-- The mnemonic of each operation (spec/opcode_table.json). -/
def mnemonicOf : Instr → String
  | .reset => "RESET"
  | .sIdle => "S_IDLE"
  | .sByte _ => "S_BYTE"
  | .bIdle => "B_IDLE"
  | .rdCtrl => "RD_CTRL"
  | .wrCtrl _ => "WR_CTRL"
  | .rdCmd => "RD_CMD"
  | .wrCmd _ => "WR_CMD"
  | .rdStatus => "RD_STATUS"
  | .wrStatus _ => "WR_STATUS"
  | .rdSync => "RD_SYNC"
  | .wrSync _ => "WR_SYNC"
  | .rdRxInfo => "RD_RX_INFO"
  | .wrRxInfo _ => "WR_RX_INFO"
  | .rdRxCsum => "RD_RX_CSUM"
  | .wrRxCsum _ => "WR_RX_CSUM"
  | .rdIrqEn => "RD_IRQ_EN"
  | .wrIrqEn _ => "WR_IRQ_EN"
  | .rdFb _ => "RD_FB"
  | .wrFb _ _ => "WR_FB"
  | .rdRsvd _ => "RD_RSVD"
  | .wrRsvd _ _ => "WR_RSVD"
  | .rdMisaligned _ => "RD_MISALIGNED"
  | .wrMisaligned _ _ => "WR_MISALIGNED"

/-- The row of format R (R102). -/
def resetRows : List OpcodeRow := [
  ⟨"RESET", 0x1000000000000000, 0x1000000000000000⟩]

/-- The rows of format S (R103). -/
def streamRows : List OpcodeRow := [
  ⟨"S_IDLE", 0x0800000000000000, 0x0000000000000000⟩,
  ⟨"S_BYTE", 0x0800000000000000, 0x0800000000000000⟩]

/-- The row of format B tried first (R106, priority 0). -/
def busRows0 : List OpcodeRow := [
  ⟨"B_IDLE", 0x0004000000000000, 0x0000000000000000⟩]

/-- The rows of format B with priority 1 (R106). -/
def busRows1 : List OpcodeRow := [
  ⟨"RD_CTRL", 0x0007FFFF00000000, 0x0005000000000000⟩,
  ⟨"WR_CTRL", 0x0007FFFF00000000, 0x0007000000000000⟩,
  ⟨"RD_CMD", 0x0007FFFF00000000, 0x0005000400000000⟩,
  ⟨"WR_CMD", 0x0007FFFF00000000, 0x0007000400000000⟩,
  ⟨"RD_STATUS", 0x0007FFFF00000000, 0x0005000800000000⟩,
  ⟨"WR_STATUS", 0x0007FFFF00000000, 0x0007000800000000⟩,
  ⟨"RD_SYNC", 0x0007FFFF00000000, 0x0005000C00000000⟩,
  ⟨"WR_SYNC", 0x0007FFFF00000000, 0x0007000C00000000⟩,
  ⟨"RD_RX_INFO", 0x0007FFFF00000000, 0x0005001000000000⟩,
  ⟨"WR_RX_INFO", 0x0007FFFF00000000, 0x0007001000000000⟩,
  ⟨"RD_RX_CSUM", 0x0007FFFF00000000, 0x0005001400000000⟩,
  ⟨"WR_RX_CSUM", 0x0007FFFF00000000, 0x0007001400000000⟩,
  ⟨"RD_IRQ_EN", 0x0007FFFF00000000, 0x0005001800000000⟩,
  ⟨"WR_IRQ_EN", 0x0007FFFF00000000, 0x0007001800000000⟩,
  ⟨"RD_FB", 0x0007000300000000, 0x0004000000000000⟩,
  ⟨"WR_FB", 0x0007000300000000, 0x0006000000000000⟩]

/-- The rows of format B with priority 2 (R106). -/
def busRows2 : List OpcodeRow := [
  ⟨"RD_RSVD", 0x0007000300000000, 0x0005000000000000⟩,
  ⟨"WR_RSVD", 0x0007000300000000, 0x0007000000000000⟩]

/-- The rows of format B with priority 3 (R106). -/
def busRows3 : List OpcodeRow := [
  ⟨"RD_MISALIGNED", 0x0006000000000000, 0x0004000000000000⟩,
  ⟨"WR_MISALIGNED", 0x0006000000000000, 0x0006000000000000⟩]

/-- The rows of format B in the order R106 tries them. -/
def busRows : List OpcodeRow := busRows0 ++ busRows1 ++ busRows2 ++ busRows3

/-- All 24 rows. -/
def opcodeRows : List OpcodeRow := resetRows ++ streamRows ++ busRows

/-- A cycle word matches a row. -/
def OpcodeRow.matches (r : OpcodeRow) (c : CycleWord) : Bool := c &&& r.mask == r.pattern

/-- "the first row of this table, in priority order, whose pattern matches" (R106). -/
def firstRow (rows : List OpcodeRow) (c : CycleWord) : Option String :=
  (rows.find? fun r => r.matches c).map OpcodeRow.mnemonic

end Sys2Proof.Machine
end

