-- ==== Sys2Proof/Safety.lean ====
section
/-! DEFINITION. What a good state is (10_state.md rule R52), which bytes accept or reject a frame (41_stream.md rules R171, R174),
the frame received so far (10_state.md rule R38), and one cycle written the way 70_reset_and_hazards.md rule R280 writes it. -/

namespace Sys2Proof.Machine

/-! ## Good states -/

/-- The invariants of R52. -/
structure ArchInv (a : Arch) : Prop where
  emptyWindow : a.st ≠ .hunt → a.fill = 0#4 ∧ a.win = 0#64
  headerCount : a.st = .hdr → a.hcnt.toNat ≤ 5
  payload : a.st = .pay →
    1 ≤ a.hLen.toNat ∧ a.pcnt.toNat < a.hLen.toNat ∧ (a.hId = 0#8 ∨ a.hId = 1#8) ∧ a.hFlags = 0x00#8
  held : a.st = .hold →
    (a.rxId = 0#8 ∨ a.rxId = 1#8) ∧ (a.rxFlags = 0x00#8 ∨ a.rxFlags = 0x40#8 ∨ a.rxFlags = 0x80#8) ∧
      (a.rxLen = 0#16 ↔ a.rxFlags ≠ 0x00#8)
  window : a.fill.toNat ≤ 8 ∧ a.win.toNat < 2 ^ (8 * a.fill.toNat)

/-- Between cycles: nothing waits for an edge. -/
def Quiet (s : State) : Prop := s.next = s.arch ∧ s.abort = false

/-! ## What the inputs of a cycle do -/

/-- A stream byte is taken (R161). -/
def byteTaken (i : CycleIn) (a : Arch) : Bool := !i.rst && i.inValid && a.en && !decide (a.st = .hold)

/-- CMD.ABORT takes effect (R212, R280). -/
def abortsNow (i : CycleIn) (a : Arch) : Bool :=
  !i.rst && i.busEn && i.busWe && i.busAddr == 0x10004#17 && i.busWdata.getLsbD 1 && !decide (a.st = .hold)

/-- CMD.RELEASE takes effect (R212, R280). -/
def releasesNow (i : CycleIn) (a : Arch) : Bool :=
  !i.rst && i.busEn && i.busWe && i.busAddr == 0x10004#17 && i.busWdata.getLsbD 0 && decide (a.st = .hold)

/-- A register write of a given address (R106). -/
def writesReg (i : CycleIn) (addr : BusAddr) : Bool := !i.rst && i.busEn && i.busWe && i.busAddr == addr

/-- The taken byte `b` is the last of its frame and its header passed (R171, R174): the frame is judged by its checksum. -/
def completesFrame (b : Byte) (a : Arch) : Bool :=
  (decide (a.st = .hdr) && a.hcnt == 5#3 && hdrOk a.hLen a.hId b && a.hLen == 0#16) ||
  (decide (a.st = .pay) && a.pcnt.toNat + 1 == a.hLen.toNat)

/-- `acc'` with the taken byte (R139): a header byte stands at frame offset `8 + hcnt`, a payload byte at `14 + pcnt`. -/
def accAfter (b : Byte) (a : Arch) : Half :=
  ocadd a.acc (contrib (if a.st = .pay then 14 + a.pcnt.toNat else 8 + a.hcnt.toNat) b)

/-- The taken byte `b` accepts a frame (R171, R174). -/
def acceptsNow (b : Byte) (a : Arch) : Bool := completesFrame b a && accAfter b a == 0xFFFF#16

/-- The taken byte `b` rejects a frame: one of the causes of R243. -/
def rejectsNow (b : Byte) (a : Arch) : Bool :=
  (decide (a.st = .hdr) && a.hcnt == 5#3 && !(hdrOk a.hLen a.hId b)) || (completesFrame b a && !(accAfter b a == 0xFFFF#16))

/-! ## The frame received so far -/

/-- The first `n` bytes of FB. -/
def fbBytes (m : Memory) (n : Nat) : List Byte := (List.range n).map (fbRead m)

/-- The bytes of the current frame taken so far (R38), for a frame found with the sync constant `sync`. -/
def frameSoFar (sync : Word) (a : Arch) : List Byte :=
  match a.st with
  | .hunt => []
  | .hdr => (header sync a.hLen a.hCsum a.hId a.hFlags).take (8 + a.hcnt.toNat)
  | .pay => header sync a.hLen a.hCsum a.hId a.hFlags ++ fbBytes a.fb a.pcnt.toNat
  | .hold => header sync a.rxLen a.rxCsum a.rxId a.rxFlags ++ fbBytes a.fb a.rxLen.toNat

/-- While SYNC is `sync`: `acc` is the folded sum of the frame bytes taken so far (R38), and a held frame passes `verify`
(R140). -/
structure ChecksumInv (sync : Word) (a : Arch) : Prop where
  syncIs : a.sync = sync
  running : a.st = .hdr ∨ a.st = .pay → a.acc.toNat = fold (wordsum (frameSoFar sync a))
  held : a.st = .hold → verify (frameSoFar sync a) = true

/-! ## One cycle as R280 writes it -/

/-- `bus_effect` of R280. -/
inductive BusEffect where
  | none
  | wrCtrl
  | wrCmd
  | wrStatus
  | wrSync
  | wrIrqEn
  deriving DecidableEq, Repr

/-- `decode_bus` of R280: `bus_rdata`, `bus_err` and `bus_effect`, by the address map of R70. -/
def decodeBusEffect (a : Arch) (i : CycleIn) : Word × Bool × BusEffect :=
  let addr := i.busAddr.toNat
  if !i.busEn then (0#32, false, .none)
  else if addr % 4 ≠ 0 then (0#32, true, .none)
  else if addr < 0x10000 then
    if i.busWe then (0#32, true, .none) else (fbWord a.fb addr, false, .none)
  else if i.busWe then
    if addr = 0x10000 then (0#32, false, .wrCtrl)
    else if addr = 0x10004 then (0#32, false, .wrCmd)
    else if addr = 0x10008 then (0#32, false, .wrStatus)
    else if addr = 0x1000C then (0#32, false, .wrSync)
    else if addr = 0x10018 then (0#32, false, .wrIrqEn)
    else (0#32, false, .none)
  else if addr = 0x10000 then (ctrlValue a, false, .none)
  else if addr = 0x10008 then (statusValue a, false, .none)
  else if addr = 0x1000C then (a.sync, false, .none)
  else if addr = 0x10010 then (rxInfoValue a, false, .none)
  else if addr = 0x10014 then (rxCsumValue a, false, .none)
  else if addr = 0x10018 then (irqEnValue a, false, .none)
  else (0#32, false, .none)

/-- The stream effect of a taken byte on one copy of the elements (R163 to R177); the fault of states no run reaches is dropped. -/
def streamElements (b : Byte) (a : Arch) : Arch :=
  match streamEffect b a a with
  | .ok n => n
  | .error _ => a

/-- One step as R280 gives it: the elements after the edge and the outputs of the cycle. -/
def referenceStep (p : Params) (s : Arch) (i : CycleIn) : Arch × CycleOut :=
  if i.rst then
    ({ Arch.reset p with fb := s.fb },
      { inReady := false, accepted := false, busRdata := 0#32, busErr := false, irq := irqLine s })
  else
    let ready := s.en && !decide (s.st = .hold)
    let taken := i.inValid && ready
    let bus := decodeBusEffect s i
    let effect := bus.2.2
    let abort := decide (effect = .wrCmd) && i.busWdata.getLsbD 1 && !decide (s.st = .hold)
    let release := decide (effect = .wrCmd) && i.busWdata.getLsbD 0 && decide (s.st = .hold)
    let s1 := if taken && !abort then streamElements i.inData s else s
    let rejEvent := taken && !abort && rejectsNow i.inData s
    let s2 := if abort || release then { s1 with st := .hunt, win := 0#64, fill := 0#4 } else s1
    let s3 := { s2 with rej := (s.rej && !(decide (effect = .wrStatus) && i.busWdata.getLsbD 5)) || rejEvent }
    let s4 := if effect = .wrCtrl then { s3 with en := i.busWdata.getLsbD 0 } else s3
    let s5 := if effect = .wrSync then { s4 with sync := i.busWdata } else s4
    let s6 :=
      if effect = .wrIrqEn then { s5 with ieReady := i.busWdata.getLsbD 0, ieRej := i.busWdata.getLsbD 1 } else s5
    (s6, { inReady := ready, accepted := taken, busRdata := bus.1, busErr := bus.2.1, irq := irqLine s })

/-! ## Runs -/

/-- The machine after the cycles whose inputs are the given words (R9). -/
def runWords (ws : List CycleWord) (s : State) : Host.Outcome State Fault Refusal :=
  Sys2Proof.core.run ws.length (s.withInputs ws)

/-- The words of cycles that offer these bytes, one per cycle, with the bus idle. -/
def byteWords (bs : List Byte) : List CycleWord := bs.map fun b => encodeCycle [.bIdle, .sByte b]

end Sys2Proof.Machine
end

