-- ==== Sys2Proof/Certificates/Slice0/Obligations.lean ====
section
/-! DEFINITION. The statements for the provers, from the numbered rules of spec/. A statement about `exec` speaks of one
operation (`arch` before the edge, `next` after it); a statement about `step` speaks of a whole cycle, whose inputs are
`CycleIn.ofWord s.nextWord`. -/

open Sys2Proof Sys2Proof.Machine

/-! ## Encoding -/

/-- R101 to R106, R111: cycle words the spec writes out decode to the operations it names. -/
def Obligations.OpcodeWordsDecode : Prop :=
  decodeCycle 0x1000000000000000 = [.reset] ∧
  decodeCycle 0x1EE7000000000001 = [.reset] ∧
  decodeCycle 0x0000000000000000 = [.bIdle, .sIdle] ∧
  decodeCycle 0x0EE5000800000000 = [.rdStatus, .sByte 0xDC] ∧
  decodeCycle 0x0007000000000001 = [.wrCtrl 1, .sIdle] ∧
  decodeCycle 0x0B4F000400000002 = [.wrCmd 2, .sByte 0x69] ∧
  decodeCycle 0x0007000C12345678 = [.wrSync 0x12345678, .sIdle] ∧
  decodeCycle 0x0004000400000000 = [.rdFb 4, .sIdle] ∧
  decodeCycle 0x0006000011223344 = [.wrFb 0 0x11223344, .sIdle] ∧
  decodeCycle 0x0005000900000000 = [.rdMisaligned 0x10009, .sIdle] ∧
  decodeCycle 0x0005001C00000000 = [.rdRsvd 0x1001C, .sIdle]

/-- R100 to R106, R111: no bit of an operation's encoding is dropped, in a cycle with any other channel's operation. -/
def Obligations.DecodeEncodeCycle : Prop :=
  ∀ ops : List Instr, cycleWf ops = true → decodeCycle (encodeCycle ops) = ops

/-- R100: "Every 61-bit value is a valid cycle word; decoding is total and no pattern is illegal." -/
def Obligations.EveryCycleWordDecodes : Prop := ∀ c : CycleWord, cycleWf (decodeCycle c) = true

/-- R106: the operation of each channel is the first row of spec/opcode_table.json, in priority order, whose mask and pattern
the cycle word matches. -/
def Obligations.DecodeFollowsOpcodeTable : Prop :=
  ∀ c : CycleWord,
    (decodeCycle c).map (fun i => some (mnemonicOf i)) =
      if (firstRow resetRows c).isSome then [firstRow resetRows c] else [firstRow busRows c, firstRow streamRows c]

/-- R109, R111: the word of a basic line, built by the shifts and ORs of R111, decodes to the operations of R109. -/
def Obligations.BasicLinesDecode : Prop :=
  ∀ (b : Byte) (l : Loc) (v : Word),
    decodeCycle Line.reset.word = [.reset] ∧
    decodeCycle Line.idle.word = [.bIdle, .sIdle] ∧
    decodeCycle (Line.byte b).word = [.bIdle, .sByte b] ∧
    decodeCycle (Line.bus (.rd l)).word = [decodeRead l.busAddr, .sIdle] ∧
    decodeCycle (Line.bus (.wr l v)).word = [decodeWrite l.busAddr v, .sIdle] ∧
    decodeCycle (Line.byteBus b (.rd l)).word = [decodeRead l.busAddr, .sByte b] ∧
    decodeCycle (Line.byteBus b (.wr l v)).word = [decodeWrite l.busAddr v, .sByte b]

/-- R107 and 93_implementation_defined.md I7: `d` when `v = 0`; `w`, `a` and `wd` when `e = 0`; `wd` on a read; every input but
`rst` in a reset cycle. -/
def Obligations.IgnoredInputsAreIgnored : Prop :=
  ∀ (c : CycleIn) (d : Byte) (w : Bool) (a : BusAddr) (wd : Word) (c' : CycleIn),
    (c.inValid = false → decodeInputs { c with inData := d } = decodeInputs c) ∧
    (c.busEn = false → decodeInputs { c with busWe := w, busAddr := a, busWdata := wd } = decodeInputs c) ∧
    (c.busWe = false → decodeInputs { c with busWdata := wd } = decodeInputs c) ∧
    (c.rst = true → decodeInputs { c' with rst := true } = decodeInputs c)

/-! ## The step -/

/-- R100, R280, and the model's own choices: a step performs the operations its inputs decode to, then the edge; a reset cycle performs
RESET alone. That the inputs are placed in State is the model's choice (log entry 1), and so are the two copies of the elements and the
order bus before stream (log entry 2): R280 applies the stream effect first and says that no other order is observable. -/
def Obligations.StepRunsTheDecodedOperations : Prop :=
  ∀ (s : State) (w : CycleWord) (ws : List CycleWord), s.inputs = w :: ws →
    (∀ b i : Instr, decodeCycle w = [b, i] →
      step s = andThen (exec b { s with inputs := ws, cycle := s.cycle + 1 }.beginCycle) fun t =>
        andThen (exec i t) fun u => .next u.clockEdge) ∧
    (∀ i : Instr, decodeCycle w = [i] →
      step s = andThen (exec i { s with inputs := ws, cycle := s.cycle + 1 }.beginCycle) fun u => .next u.clockEdge)

/-- R280: the step, composed of the cycle's operations, gives the elements and the outputs that R280's pseudocode gives in one
piece, from every state that meets the invariants of R52. -/
def Obligations.StepIsR280 : Prop :=
  ∀ s : State, ArchInv s.arch →
    ∃ t, step s = .next t ∧ (t.arch, t.out) = referenceStep s.params s.arch (CycleIn.ofWord s.nextWord)

/-- R52: every step keeps the invariants of the parser state. -/
def Obligations.StepKeepsArchInv : Prop :=
  ∀ s t : State, ArchInv s.arch → step s = .next t → ArchInv t.arch

/-- R38, R52, R271, and the model's own choices: the state after reset meets the invariants of R52 and of `acc`, with SYNC at the default
the model takes for SYNC_RESET (log entry 4); nothing waits for an edge (`Quiet`, log entry 2); and the frame buffer is in the
canonical form of log entry 6. -/
def Obligations.ResetMeetsInvariants : Prop :=
  ArchInv State.reset.arch ∧ ChecksumInv Params.standard.syncReset State.reset.arch ∧ Quiet State.reset ∧
  State.reset.arch.fb.wf = true

/-- R9: "FRX never stops by itself": any number of cycles, whatever the inputs, from any state that meets R52. -/
def Obligations.FrxNeverStops : Prop :=
  ∀ (n : Nat) (s : State), ArchInv s.arch → ∃ t, Sys2Proof.core.run n s = .next t ∧ ArchInv t.arch

/-- R46, and the model's own choice of a canonical form (log entry 6): every step keeps that form, so that equal frame buffers are equal
data. -/
def Obligations.StepKeepsMemoryCanonical : Prop :=
  ∀ s t : State, s.arch.fb.wf = true → step s = .next t → t.arch.fb.wf = true

/-- The model's own bookkeeping (log entries 1, 2 and 4): after a step nothing waits for an edge, the parameters are unchanged, one
word of input is consumed. -/
def Obligations.StepEndsQuiet : Prop :=
  ∀ s t : State, step s = .next t →
    Quiet t ∧ t.params = s.params ∧ t.inputs = s.inputs.tail ∧ t.cycle = s.cycle + 1

/-! ## What each operation does -/

/-- R49, R270: RESET gives every element but FB its reset value, and drives the outputs low but for `irq`. -/
def Obligations.ResetCompletes : Prop :=
  ∀ s : State, exec .reset s = .next
    { s with
      next :=
        { st := .hunt, win := 0#64, fill := 0#4, hcnt := 0#3, hLen := 0#16, hCsum := 0#16, hId := 0#8, hFlags := 0#8,
          pcnt := 0#16, acc := 0#16, en := false, sync := s.params.syncReset, rej := false, ieReady := false,
          ieRej := false, rxLen := 0#16, rxId := 0#8, rxFlags := 0#8, rxCsum := 0#16, fb := s.next.fb }
      out := { s.out with inReady := false, accepted := false, busRdata := 0#32, busErr := false } }

/-- R160 to R162: S_IDLE changes no element; it drives `in_ready`, and no byte is accepted. -/
def Obligations.StreamIdleCompletes : Prop :=
  ∀ s : State, exec .sIdle s = .next
    { s with out := { s.out with inReady := s.arch.en && decide (s.arch.st ≠ .hold), accepted := false } }

/-- R200, R202, R204 to R209, R220: B_IDLE and the register reads drive `bus_rdata` with the value before the edge, written here
as numbers, drive `bus_err` = 0 and change no element; each is the read of its address. -/
def Obligations.RegisterReadsComplete : Prop :=
  ∀ (s : State) (a : BusAddr),
    let reads : Instr → Nat → Prop := fun i v =>
      exec i s = .next { s with out := { s.out with busRdata := BitVec.ofNat 32 v, busErr := false } }
    reads .bIdle 0 ∧
    reads .rdCtrl s.arch.en.toNat ∧
    reads .rdCmd 0 ∧
    reads .rdStatus (32 * s.arch.rej.toNat + (match s.arch.st with | .hunt => 0 | .hdr => 1 | .pay => 2 | .hold => 16 + 3)) ∧
    reads .rdSync s.arch.sync.toNat ∧
    reads .rdRxInfo (65536 * s.arch.rxLen.toNat + 256 * s.arch.rxId.toNat + s.arch.rxFlags.toNat) ∧
    reads .rdRxCsum s.arch.rxCsum.toNat ∧
    reads .rdIrqEn (2 * s.arch.ieRej.toNat + s.arch.ieReady.toNat) ∧
    reads (.rdRsvd a) 0 ∧
    decodeRead 0x10000#17 = .rdCtrl ∧ decodeRead 0x10004#17 = .rdCmd ∧ decodeRead 0x10008#17 = .rdStatus ∧
    decodeRead 0x1000C#17 = .rdSync ∧ decodeRead 0x10010#17 = .rdRxInfo ∧ decodeRead 0x10014#17 = .rdRxCsum ∧
    decodeRead 0x10018#17 = .rdIrqEn ∧ (wfRsvdAddr a = true → decodeRead a = .rdRsvd a)

/-- R74, R218: RD_FB answers the four bytes from `a` on, the first in bits 31:24, the nonexistent byte 65535 as 0. -/
def Obligations.FrameBufferReadCompletes : Prop :=
  ∀ (s : State) (a : BusAddr), wfFbAddr a = true →
    decodeRead a = .rdFb a ∧ ∃ v : Word, exec (.rdFb a) s = .next { s with out := { s.out with busRdata := v, busErr := false } } ∧
      ∀ k, k < 4 → v.extractLsb' (8 * (3 - k)) 8 =
        if a.toNat + k ≤ 65534 then fbRead s.arch.fb (a.toNat + k) else 0#8

/-- R203, R210, R211, R215, R216: the register writes store their fields at the edge; reserved bits of `wd` are ignored. -/
def Obligations.RegisterWritesComplete : Prop :=
  ∀ (s : State) (wd : Word),
    let writes : Instr → Arch → Prop := fun i n =>
      exec i s = .next { s with next := n, out := { s.out with busRdata := 0#32, busErr := false } }
    writes (.wrCtrl wd) { s.next with en := decide (wd.toNat % 2 = 1) } ∧
    writes (.wrStatus wd) { s.next with rej := s.arch.rej && decide (wd.toNat / 32 % 2 = 0) } ∧
    writes (.wrSync wd) { s.next with sync := wd } ∧
    writes (.wrIrqEn wd)
      { s.next with ieReady := decide (wd.toNat % 2 = 1), ieRej := decide (wd.toNat / 2 % 2 = 1) }

/-- R213, R214, R220: writes of RX_INFO, RX_CSUM and the reserved addresses are ignored, with `bus_err = 0`. -/
def Obligations.IgnoredWritesComplete : Prop :=
  ∀ (s : State) (a : BusAddr) (wd : Word),
    (∀ i ∈ [Instr.wrRxInfo wd, Instr.wrRxCsum wd, Instr.wrRsvd a wd],
      exec i s = .next { s with out := { s.out with busRdata := 0#32, busErr := false } }) ∧
    decodeWrite 0x10010#17 wd = .wrRxInfo wd ∧ decodeWrite 0x10014#17 wd = .wrRxCsum wd ∧
    (wfRsvdAddr a = true → decodeWrite a wd = .wrRsvd a wd)

/-- R212: RELEASE frees a held frame, ABORT discards a frame in progress and drops the byte of its cycle, never both. -/
def Obligations.CommandWriteCompletes : Prop :=
  ∀ (s : State) (wd : Word),
    let release := wd.toNat % 2 = 1 ∧ s.arch.st = .hold
    let abort := wd.toNat / 2 % 2 = 1 ∧ s.arch.st ≠ .hold
    exec (.wrCmd wd) s = .next
      { s with
        next := if release ∨ abort then { s.next with st := .hunt, win := 0#64, fill := 0#4 } else s.next
        abort := decide abort
        out := { s.out with busRdata := 0#32, busErr := false } }

/-- R219, R221: a write to the FB window and every misaligned access, in any region, drive `bus_err = 1`, `bus_rdata = 0` and change
no element. -/
def Obligations.RefusedAccessesComplete : Prop :=
  ∀ (s : State) (a : BusAddr) (wd : Word),
    (∀ i ∈ [Instr.wrFb a wd, Instr.rdMisaligned a, Instr.wrMisaligned a wd],
      exec i s = .next { s with out := { s.out with busRdata := 0#32, busErr := true } }) ∧
    (wfFbAddr a = true → decodeWrite a wd = .wrFb a wd) ∧
    (a.toNat % 4 ≠ 0 → decodeRead a = .rdMisaligned a ∧ decodeWrite a wd = .wrMisaligned a wd)

/-- R160, R161, R163, R212: a byte offered while `in_ready` is 0 is not taken; a byte taken in the cycle of an effective ABORT is
accepted and dropped. -/
def Obligations.ByteNotTakenOrDropped : Prop :=
  ∀ (s : State) (d : Byte),
    ((s.arch.en = false ∨ s.arch.st = .hold) →
      exec (.sByte d) s = .next { s with out := { s.out with inReady := false, accepted := false } }) ∧
    (s.arch.en = true → s.arch.st ≠ .hold → s.abort = true →
      exec (.sByte d) s = .next { s with out := { s.out with inReady := true, accepted := true } })

/-- R165, R166: a byte taken in HUNT shifts the window, and the last 8 bytes equal to `SYNC ‖ SYNC` start a header. -/
def Obligations.HuntByteCompletes : Prop :=
  ∀ (s : State) (d : Byte), s.arch.en = true → s.abort = false → s.arch.st = .hunt →
    let win1 := (s.arch.win.toNat * 256 + d.toNat) % 2 ^ 64
    let fill1 := min (s.arch.fill.toNat + 1) 8
    exec (.sByte d) s = .next
      { s with
        next :=
          if fill1 = 8 ∧ win1 = s.arch.sync.toNat * 2 ^ 32 + s.arch.sync.toNat then
            { s.next with st := .hdr, hcnt := 0#3, acc := sacc s.arch.sync, win := 0#64, fill := 0#4 }
          else { s.next with win := BitVec.ofNat 64 win1, fill := BitVec.ofNat 4 fill1 }
        out := { s.out with inReady := true, accepted := true } }

/-- R168 to R170: the bytes at frame offsets 8 to 12 enter the running sum and their field. -/
def Obligations.HeaderFieldByteCompletes : Prop :=
  ∀ (s : State) (d : Byte), s.arch.en = true → s.abort = false → s.arch.st = .hdr → s.arch.hcnt.toNat < 5 →
    let k := s.arch.hcnt.toNat
    let added : Half := if k % 2 = 0 then BitVec.ofNat 16 (d.toNat * 256) else BitVec.ofNat 16 d.toNat
    let high (v : Half) : Half := BitVec.ofNat 16 (d.toNat * 256 + v.toNat % 256)
    let low (v : Half) : Half := BitVec.ofNat 16 (v.toNat / 256 * 256 + d.toNat)
    exec (.sByte d) s = .next
      { s with
        next :=
          { s.next with
            acc := ocadd s.arch.acc added
            hcnt := BitVec.ofNat 3 (k + 1)
            hLen := if k = 0 then high s.arch.hLen else if k = 1 then low s.arch.hLen else s.next.hLen
            hCsum := if k = 2 then high s.arch.hCsum else if k = 3 then low s.arch.hCsum else s.next.hCsum
            hId := if k = 4 then d else s.next.hId }
        out := { s.out with inReady := true, accepted := true } }

/-- R171, R172, R176, R177: the flags byte judges the header. -/
def Obligations.FlagsByteCompletes : Prop :=
  ∀ (s : State) (d : Byte), s.arch.en = true → s.abort = false → s.arch.st = .hdr → s.arch.hcnt = 5#3 →
    let n := s.arch.hLen.toNat
    let acc1 := ocadd s.arch.acc (BitVec.ofNat 16 d.toNat)
    let nx := { s.next with acc := acc1, hFlags := d }
    let idOk := s.arch.hId.toNat ≤ 1
    exec (.sByte d) s = .next
      { s with
        next :=
          if idOk ∧ d = 0x00#8 ∧ 1 ≤ n then { nx with st := .pay, pcnt := 0#16 }
          else if idOk ∧ (d = 0x40#8 ∨ d = 0x80#8) ∧ n = 0 ∧ acc1 = 0xFFFF#16 then
            { nx with
              st := .hold, rxLen := s.arch.hLen, rxCsum := s.arch.hCsum, rxId := s.arch.hId, rxFlags := d, win := 0#64,
              fill := 0#4 }
          else { nx with st := .hunt, rej := true, win := 0#64, fill := 0#4 }
        out := { s.out with inReady := true, accepted := true } }

/-- R173, R174: a payload byte is stored at `FB[pcnt]` and added with the parity of `pcnt`; the last one completes the frame. -/
def Obligations.PayloadByteCompletes : Prop :=
  ∀ (s : State) (d : Byte), s.arch.en = true → s.abort = false → s.arch.st = .pay → s.arch.pcnt.toNat < 65535 →
    let p := s.arch.pcnt.toNat
    let acc1 := ocadd s.arch.acc (if p % 2 = 0 then BitVec.ofNat 16 (d.toNat * 256) else BitVec.ofNat 16 d.toNat)
    let nx := { s.next with fb := s.next.fb.write p d, acc := acc1, pcnt := BitVec.ofNat 16 (p + 1) }
    exec (.sByte d) s = .next
      { s with
        next :=
          if p + 1 = s.arch.hLen.toNat then
            if acc1 = 0xFFFF#16 then
              { nx with
                st := .hold, rxLen := s.arch.hLen, rxCsum := s.arch.hCsum, rxId := s.arch.hId, rxFlags := s.arch.hFlags,
                win := 0#64, fill := 0#4 }
            else { nx with st := .hunt, rej := true, win := 0#64, fill := 0#4 }
          else nx
        out := { s.out with inReady := true, accepted := true } }

/-- R35, R46, R173 (log entry 7): S_BYTE stops only where a byte is taken with `hcnt` 6 or 7 in HDR, or for `FB[65535]`; the model's
choice for states no run reaches. -/
def Obligations.ByteStopsOnlyWhereNoRunReaches : Prop :=
  ∀ (s : State) (d : Byte),
    (∀ f : Fault, exec (.sByte d) s = .fault f ↔
      s.arch.en = true ∧ s.abort = false ∧
        ((f = .headerCountOutOfRange ∧ s.arch.st = .hdr ∧ 6 ≤ s.arch.hcnt.toNat) ∨
          (f = .frameBufferOutOfRange ∧ s.arch.st = .pay ∧ s.arch.pcnt.toNat = 65535))) ∧
    (∀ r : Refusal, exec (.sByte d) s ≠ .refused r)

/-- R46, R50, R176, R177: the frame of S_BYTE. The control registers, the bus outputs and the elements before the edge stay; RX_INFO
and RX_CSUM stay unless the byte accepts a frame, REJ unless it rejects one; every byte of FB but `FB[pcnt]` in PAY reads as before. -/
def Obligations.ByteFrame : Prop :=
  ∀ (s t : State) (d : Byte), exec (.sByte d) s = .next t →
    t.params = s.params ∧ t.arch = s.arch ∧ t.abort = s.abort ∧ t.inputs = s.inputs ∧ t.cycle = s.cycle ∧
    t.out.busRdata = s.out.busRdata ∧ t.out.busErr = s.out.busErr ∧ t.out.irq = s.out.irq ∧
    t.next.en = s.next.en ∧ t.next.sync = s.next.sync ∧ t.next.ieReady = s.next.ieReady ∧ t.next.ieRej = s.next.ieRej ∧
    (acceptsNow d s.arch = false →
      t.next.rxLen = s.next.rxLen ∧ t.next.rxId = s.next.rxId ∧ t.next.rxFlags = s.next.rxFlags ∧
        t.next.rxCsum = s.next.rxCsum) ∧
    (rejectsNow d s.arch = false → t.next.rej = s.next.rej) ∧
    (∀ j, ¬(s.arch.st = .pay ∧ j = s.arch.pcnt.toNat) → fbRead t.next.fb j = fbRead s.next.fb j)

/-- R78, R106, R203, R210 to R215, R219 to R221: the frame of the bus operations. No bus operation changes a byte of FB, RX_INFO, RX_CSUM,
the working header registers, the counters or `acc`; each control element changes only by its own register's write. -/
def Obligations.BusOperationFrame : Prop :=
  ∀ (s t : State) (i : Instr), i.format = .b → exec i s = .next t →
    t.params = s.params ∧ t.arch = s.arch ∧ t.inputs = s.inputs ∧ t.cycle = s.cycle ∧
    t.out.inReady = s.out.inReady ∧ t.out.accepted = s.out.accepted ∧ t.out.irq = s.out.irq ∧
    t.next.hcnt = s.next.hcnt ∧ t.next.hLen = s.next.hLen ∧ t.next.hCsum = s.next.hCsum ∧ t.next.hId = s.next.hId ∧
    t.next.hFlags = s.next.hFlags ∧ t.next.pcnt = s.next.pcnt ∧ t.next.acc = s.next.acc ∧
    t.next.rxLen = s.next.rxLen ∧ t.next.rxId = s.next.rxId ∧ t.next.rxFlags = s.next.rxFlags ∧
    t.next.rxCsum = s.next.rxCsum ∧
    (∀ j, fbRead t.next.fb j = fbRead s.next.fb j) ∧
    ((∀ wd, i ≠ .wrCtrl wd) → t.next.en = s.next.en) ∧
    ((∀ wd, i ≠ .wrSync wd) → t.next.sync = s.next.sync) ∧
    ((∀ wd, i ≠ .wrStatus wd) → t.next.rej = s.next.rej) ∧
    ((∀ wd, i ≠ .wrIrqEn wd) → t.next.ieReady = s.next.ieReady ∧ t.next.ieRej = s.next.ieRej) ∧
    ((∀ wd, i ≠ .wrCmd wd) →
      t.abort = s.abort ∧ t.next.st = s.next.st ∧ t.next.win = s.next.win ∧ t.next.fill = s.next.fill)

/-! ## Rules of the whole machine, over any cycle -/

/-- R160, R161: `in_ready = ¬rst ∧ en ∧ (st ≠ HOLD)` and `accepted = in_valid ∧ in_ready`, whatever the bus access of the cycle. -/
def Obligations.InReadyAndAccepted : Prop :=
  ∀ s t : State, step s = .next t →
    let i := CycleIn.ofWord s.nextWord
    t.out.inReady = (!i.rst && s.arch.en && decide (s.arch.st ≠ .hold)) ∧
    t.out.accepted = (i.inValid && t.out.inReady)

/-- R161: a byte offered while `in_ready = 0` changes no state and is not remembered: the cycle leaves the elements it leaves when no
byte is offered. -/
def Obligations.UntakenByteChangesNothing : Prop :=
  ∀ s s' t t' : State, s'.arch = s.arch → s'.params = s.params →
    CycleIn.ofWord s'.nextWord = { CycleIn.ofWord s.nextWord with inValid := false } →
    step s = .next t → step s' = .next t' → t.out.inReady = false → t.arch = t'.arch

/-- R250: `irq`, in every cycle, reset cycles included, is a function of the state before the edge; it is 0 in the cycle after a reset. -/
def Obligations.IrqIsLevel : Prop :=
  ∀ s t : State, step s = .next t →
    t.out.irq = ((decide (s.arch.st = .hold) && s.arch.ieReady) || (s.arch.rej && s.arch.ieRej)) ∧
    ∀ u : State, (CycleIn.ofWord s.nextWord).rst = true → step t = .next u → u.out.irq = false

/-- R241: `bus_err` is 1 exactly for a misaligned access and a write to the FB window (and never in a reset cycle), `bus_rdata` is then 0,
and the cycle's elements and stream outputs are those of the same cycle without the access. -/
def Obligations.BusErrorRule : Prop :=
  ∀ s t : State, step s = .next t →
    let i := CycleIn.ofWord s.nextWord
    (t.out.busErr = true ↔
      i.rst = false ∧ i.busEn = true ∧ (i.busAddr.toNat % 4 ≠ 0 ∨ (i.busWe = true ∧ i.busAddr.toNat < 0x10000))) ∧
    (t.out.busErr = true → t.out.busRdata = 0#32) ∧
    (∀ s' t' : State, s'.arch = s.arch → s'.params = s.params →
      CycleIn.ofWord s'.nextWord = { i with busEn := false } → step s' = .next t' → t.out.busErr = true →
        t.arch = t'.arch ∧ t.out.inReady = t'.out.inReady ∧ t.out.accepted = t'.out.accepted)

/-- R78, R201: no bus read has a side effect: the elements after a cycle with a read are those of the same cycle with the bus idle. -/
def Obligations.ReadsHaveNoSideEffect : Prop :=
  ∀ s s' t t' : State, s'.arch = s.arch → s'.params = s.params →
    (CycleIn.ofWord s.nextWord).busWe = false →
    CycleIn.ofWord s'.nextWord = { CycleIn.ofWord s.nextWord with busEn := false } →
    step s = .next t → step s' = .next t' → t.arch = t'.arch

/-- R162, R200: a cycle that requests nothing changes no element. -/
def Obligations.IdleCycleKeepsElements : Prop :=
  ∀ s : State, decodeCycle s.nextWord = [.bIdle, .sIdle] → ∃ t, step s = .next t ∧ t.arch = s.arch

/-- R270: a reset cycle resets every element but FB whatever the other inputs request, takes no byte and answers no access; `irq` is the
function of the state before the edge. -/
def Obligations.ResetCycle : Prop :=
  ∀ s : State, (CycleIn.ofWord s.nextWord).rst = true →
    ∃ t, step s = .next t ∧
      t.arch =
        { st := .hunt, win := 0#64, fill := 0#4, hcnt := 0#3, hLen := 0#16, hCsum := 0#16, hId := 0#8, hFlags := 0#8,
          pcnt := 0#16, acc := 0#16, en := false, sync := s.params.syncReset, rej := false, ieReady := false,
          ieRej := false, rxLen := 0#16, rxId := 0#8, rxFlags := 0#8, rxCsum := 0#16, fb := s.arch.fb } ∧
      t.out.inReady = false ∧ t.out.accepted = false ∧ t.out.busRdata = 0#32 ∧ t.out.busErr = false ∧
      t.out.irq = ((decide (s.arch.st = .hold) && s.arch.ieReady) || (s.arch.rej && s.arch.ieRej))

/-- R163, R175, R212, R247, R295: an effective ABORT or RELEASE leaves HUNT with an empty window and every other element as it was, a
byte taken in the cycle of an ABORT being accepted and dropped; no byte is taken in the cycle of a RELEASE, and `in_ready` is `en` after it. -/
def Obligations.CommandsReturnToHunt : Prop :=
  ∀ s : State,
    let i := CycleIn.ofWord s.nextWord
    abortsNow i s.arch = true ∨ releasesNow i s.arch = true →
      ∃ t, step s = .next t ∧ t.arch = { s.arch with st := .hunt, win := 0#64, fill := 0#4 } ∧
        t.out.accepted = (i.inValid && s.arch.en && decide (s.arch.st ≠ .hold)) ∧ inReady t.arch = t.arch.en

/-- R176, R210, R246, R247: REJ after any cycle: a reject sets it, and beats a same-cycle clear; a STATUS write with bit 5 clears it; reset
clears it; nothing else changes it. -/
def Obligations.RejectFlagRule : Prop :=
  ∀ s t : State, step s = .next t →
    let i := CycleIn.ofWord s.nextWord
    t.arch.rej =
      (!i.rst &&
        ((s.arch.rej && !(writesReg i 0x10008#17 && i.busWdata.getLsbD 5)) ||
          (byteTaken i s.arch && !abortsNow i s.arch && rejectsNow i.inData s.arch)))

/-- R51, R175, R177, R212: READY (`st = HOLD`) after any cycle: set by an accept, ended by RELEASE or reset, changed by nothing else. -/
def Obligations.ReadyFlagRule : Prop :=
  ∀ s t : State, step s = .next t →
    let i := CycleIn.ofWord s.nextWord
    (t.arch.st = .hold ↔
      (s.arch.st = .hold ∧ i.rst = false ∧ releasesNow i s.arch = false) ∨
        (byteTaken i s.arch = true ∧ abortsNow i s.arch = false ∧ acceptsNow i.inData s.arch = true))

/-- R46, R173, R219: over any cycle, a byte of FB reads as before unless it is `FB[pcnt]` and a payload byte is taken and not dropped;
then it is that byte. -/
def Obligations.OnlyPayloadBytesWriteFb : Prop :=
  ∀ s t : State, step s = .next t → ∀ j : Nat,
    let i := CycleIn.ofWord s.nextWord
    fbRead t.arch.fb j =
      if byteTaken i s.arch = true ∧ abortsNow i s.arch = false ∧ s.arch.st = .pay ∧ j = s.arch.pcnt.toNat then i.inData
      else fbRead s.arch.fb j

/-- R43, R44, R177: over any cycle RX_INFO and RX_CSUM are written by an accept, with the frame's header fields, and by reset, only. -/
def Obligations.HeaderRegistersRule : Prop :=
  ∀ s t : State, step s = .next t →
    let i := CycleIn.ofWord s.nextWord
    let flags := if s.arch.st = .pay then s.arch.hFlags else i.inData
    (t.arch.rxLen, t.arch.rxId, t.arch.rxFlags, t.arch.rxCsum) =
      if i.rst = true then (0#16, 0#8, 0#8, 0#16)
      else if byteTaken i s.arch = true ∧ abortsNow i s.arch = false ∧ acceptsNow i.inData s.arch = true then
        (s.arch.hLen, s.arch.hId, flags, s.arch.hCsum)
      else (s.arch.rxLen, s.arch.rxId, s.arch.rxFlags, s.arch.rxCsum)

/-- R39, R42, R45, R203, R211, R215: over any cycle CTRL.EN, SYNC and IRQ_EN are written by their own register's write and by reset, only. -/
def Obligations.ControlRegistersRule : Prop :=
  ∀ s t : State, step s = .next t →
    let i := CycleIn.ofWord s.nextWord
    (t.arch.en, t.arch.sync, t.arch.ieReady, t.arch.ieRej) =
      if i.rst = true then (false, s.params.syncReset, false, false)
      else
        (if writesReg i 0x10000#17 = true then i.busWdata.getLsbD 0 else s.arch.en,
          if writesReg i 0x1000C#17 = true then i.busWdata else s.arch.sync,
          if writesReg i 0x10018#17 = true then i.busWdata.getLsbD 0 else s.arch.ieReady,
          if writesReg i 0x10018#17 = true then i.busWdata.getLsbD 1 else s.arch.ieRej)

/-- R164: while `en = 0` the parser keeps its place: no cycle but a reset, an ABORT or a RELEASE changes the parser's elements. -/
def Obligations.PauseKeepsParser : Prop :=
  ∀ s t : State, step s = .next t → s.arch.en = false →
    let i := CycleIn.ofWord s.nextWord
    i.rst = false → abortsNow i s.arch = false → releasesNow i s.arch = false →
      t.arch.st = s.arch.st ∧ t.arch.win = s.arch.win ∧ t.arch.fill = s.arch.fill ∧ t.arch.hcnt = s.arch.hcnt ∧
      t.arch.pcnt = s.arch.pcnt ∧ t.arch.acc = s.arch.acc ∧ t.arch.hLen = s.arch.hLen ∧ t.arch.hCsum = s.arch.hCsum ∧
      t.arch.hId = s.arch.hId ∧ t.arch.hFlags = s.arch.hFlags ∧ t.arch.fb = s.arch.fb

/-- R81, R175: while a frame is held, any number of cycles without reset and without RELEASE leaves it held, and FB, RX_INFO and RX_CSUM
as they are. -/
def Obligations.HeldFrameStays : Prop :=
  ∀ (ws : List CycleWord) (s : State), s.arch.st = .hold →
    (∀ w ∈ ws, (CycleIn.ofWord w).rst = false ∧
      ¬(writesReg (CycleIn.ofWord w) 0x10004#17 = true ∧ (CycleIn.ofWord w).busWdata.getLsbD 0 = true)) →
    ∃ t, runWords ws s = .next t ∧ t.arch.st = .hold ∧ t.arch.fb = s.arch.fb ∧ t.arch.rxLen = s.arch.rxLen ∧
      t.arch.rxId = s.arch.rxId ∧ t.arch.rxFlags = s.arch.rxFlags ∧ t.arch.rxCsum = s.arch.rxCsum

/-- R180: chunking independence: cycles that request nothing, anywhere in a run, do not change the elements it ends with. -/
def Obligations.IdleCyclesDoNotMatter : Prop :=
  ∀ (ws : List CycleWord) (s t : State), runWords ws s = .next t →
    ∃ t', runWords (ws.filter fun w => decodeCycle w != [.bIdle, .sIdle]) s = .next t' ∧ t'.arch = t.arch

/-- R50: the hidden elements are not readable: two states that differ only in `win`, `fill`, `hcnt`, the working header registers, `pcnt`
and `acc` give the same outputs in a cycle with the same inputs. -/
def Obligations.HiddenStateIsNotReadable : Prop :=
  ∀ s s' t t' : State, s'.params = s.params → s'.nextWord = s.nextWord →
    s'.arch = { s.arch with
      win := s'.arch.win, fill := s'.arch.fill, hcnt := s'.arch.hcnt, hLen := s'.arch.hLen, hCsum := s'.arch.hCsum,
      hId := s'.arch.hId, hFlags := s'.arch.hFlags, pcnt := s'.arch.pcnt, acc := s'.arch.acc } →
    step s = .next t → step s' = .next t' → t'.out = t.out

/-- R273: DISABLE, ABORT (or RELEASE if READY), CLRREJ with no byte offered return the parser to HUNT with an empty window and REJ clear,
and keep SYNC, IRQ_EN, RX_INFO and RX_CSUM. -/
def Obligations.SoftRestart : Prop :=
  ∀ s : State,
    let second : Pseudo := if s.arch.st = .hold then .release else .abort
    ∃ t, runWords (scriptWords s.params [.disable, second, .clrRej]) s = .next t ∧
      t.arch = { s.arch with en := false, st := .hunt, win := 0#64, fill := 0#4, rej := false }

/-! ## The checksum -/

/-- R131: `ocadd` is one step of end-around carry, the rule's corner cases and example; and it agrees with `fold` of the exact sum. -/
def Obligations.OcaddIsFold : Prop :=
  (∀ a v : Half,
    (ocadd a v).toNat = (a.toNat + v.toNat) % 0x10000 + (a.toNat + v.toNat) / 0x10000 ∧
    (ocadd a v).toNat = fold (a.toNat + v.toNat)) ∧
  ocadd 0 0 = 0 ∧ ocadd 0xFFFF 0xFFFF = 0xFFFF ∧ ocadd 0xFFFF 1 = 1 ∧ ocadd 0x8000 0x8000 = 1 ∧ ocadd 0 0xFFFF = 0xFFFF ∧
  ocadd 0xFFFE 1 = 0xFFFF ∧ ocadd 0xDCC0 0x23C2 = 0x0083

/-- R132: `fold` is the loop of the rule, each of whose iterations decreases `s`; `fold(s) = 0` iff `s = 0`; else `fold(s)` is the unique
value in `1 .. 0xFFFF` congruent to `s` modulo `0xFFFF`; the rule's corner cases and example. -/
def Obligations.FoldIsResidue : Prop :=
  (∀ s : Nat,
    (fold s = if s > 0xFFFF then fold (s % 0x10000 + s / 0x10000) else s) ∧
    (s > 0xFFFF → s % 0x10000 + s / 0x10000 < s) ∧
    (fold s = 0 ↔ s = 0) ∧ fold s ≤ 0xFFFF ∧ fold s % 0xFFFF = s % 0xFFFF ∧
    (∀ v, 1 ≤ v → v ≤ 0xFFFF → v % 0xFFFF = s % 0xFFFF → s ≠ 0 → v = fold s)) ∧
  fold 0x1FFFE = 0xFFFF ∧ fold 0x2FFFD = 0xFFFF ∧ fold 0xFFFFFFFF = 0xFFFF ∧ fold 0x10000 = 1 ∧ fold 0xFFFF0000 = 0xFFFF ∧
  fold 0x36049 = 0x604C

/-- R138, R139: the byte weights, `wordsum` as the sum of the contributions, and the accumulator FRX updates byte by byte as the fold of
that exact sum. -/
def Obligations.AccumulatorLaw : Prop :=
  (∀ (k : Nat) (b : Byte),
    (contrib k b).toNat = (if k % 2 = 0 then b.toNat <<< 8 else b.toNat) ∧ contrib (14 + k) b = contrib k b) ∧
  ∀ bs : List Byte,
    let sum := ((List.range bs.length).map fun k => (contrib k (bs.getD k 0#8)).toNat).sum
    wordsum bs = sum ∧ (accumulate 0 0#16 bs).toNat = fold sum

/-- R141: `sacc(SYNC)` is `fold(2·hi + 2·lo)`, the accumulator after the 8 sync bytes. -/
def Obligations.SaccCountsSyncBytes : Prop :=
  ∀ s : Word,
    (sacc s).toNat = fold (2 * (s.toNat / 65536) + 2 * (s.toNat % 65536)) ∧
    sacc s = accumulate 0 0#16 (wordBytes s ++ wordBytes s)

/-- R136: the exact sum of the largest frame fits in 32 bits. -/
def Obligations.WordsumFitsIn32Bits : Prop :=
  ∀ bs : List Byte, bs.length ≤ 14 + 65535 → wordsum bs ≤ 2147910225 ∧ wordsum bs < 2 ^ 32

/-- R142: "`Checksum Engine.verify(apply(F)) == true` for every frame `F` built by the Codec". -/
def Obligations.BuiltFramesVerify : Prop :=
  ∀ (s : Word) (n : Half) (i f : Byte) (payload : List Byte),
    verify (applyChecksum (header s n 0#16 i f ++ payload)) = true

/-- R143: if `verify(F)` is true and `G` differs from `F` in exactly one bit, then `verify(G)` is false. -/
def Obligations.SingleBitErrorsAreDetected : Prop :=
  ∀ (pre post : List Byte) (b : Byte) (k : Nat), k < 8 → verify (pre ++ b :: post) = true →
    verify (pre ++ (b ^^^ (1#8 <<< k)) :: post) = false

/-- R144: exchanging two 16-bit words at even offsets, and replacing a word 0x0000 by 0xFFFF where the total stays nonzero, are not
detected. -/
def Obligations.WordExchangeIsNotDetected : Prop :=
  ∀ (p q r : List Byte) (a b c d : Byte), p.length % 2 = 0 → q.length % 2 = 0 →
    verify (p ++ [a, b] ++ q ++ [c, d] ++ r) = verify (p ++ [c, d] ++ q ++ [a, b] ++ r) ∧
    (verify (p ++ [0, 0] ++ r) = true → verify (p ++ [0xFF, 0xFF] ++ r) = true) ∧
    (verify (p ++ [0xFF, 0xFF] ++ r) = true → wordsum (p ++ [0, 0] ++ r) ≠ 0 → verify (p ++ [0, 0] ++ r) = true)

/-- R172: the header domain check, as the rule's truth table. -/
def Obligations.HeaderDomainTable : Prop :=
  ∀ (n : Half) (i f : Byte),
    hdrOk n i f = true ↔
      i.toNat ≤ 1 ∧
        ((f.toNat = 0x00 ∧ 1 ≤ n.toNat) ∨ (f.toNat = 0x40 ∧ n.toNat = 0) ∨ (f.toNat = 0x80 ∧ n.toNat = 0))

/-! ## Frames -/

/-- R38, R139, R140: while SYNC is not written, every step keeps: `acc` is the folded sum of the frame bytes taken so far, and a held
frame passes `verify`. -/
def Obligations.StepKeepsChecksumInv : Prop :=
  ∀ (sync : Word) (s t : State), ArchInv s.arch → ChecksumInv sync s.arch → step s = .next t →
    (CycleIn.ofWord s.nextWord).rst = false → writesReg (CycleIn.ofWord s.nextWord) 0x1000C#17 = false →
    ChecksumInv sync t.arch

/-- R165 to R167: from an empty window, the parser leaves HUNT at the first taken byte that ends an 8-byte run equal to `SYNC ‖ SYNC`:
before it the parser is in HUNT, after it in HDR, whatever junk came before. -/
def Obligations.SyncSearchFindsFirstPattern : Prop :=
  ∀ (bs : List Byte) (s : State), s.arch.st = .hunt → s.arch.win = 0#64 → s.arch.fill = 0#4 → s.arch.en = true →
    let pattern := wordBytes s.arch.sync ++ wordBytes s.arch.sync
    (∀ k, k < bs.length → ¬ pattern <:+ bs.take k) →
    ∃ t, runWords (byteWords bs) s = .next t ∧
      (¬ pattern <:+ bs → t.arch.st = .hunt) ∧
      (pattern <:+ bs → t.arch.st = .hdr ∧ t.arch.hcnt = 0#3 ∧ t.arch.acc = sacc s.arch.sync)

/-- R171 to R177, R179, R243: a frame whose header passes the domain checks, taken from an empty window, is held with its header
registers and its payload in FB exactly if `verify` holds of it, and is rejected otherwise. -/
def Obligations.FrameIsJudgedByVerify : Prop :=
  ∀ (s : State) (n c : Half) (i f : Byte) (payload : List Byte),
    s.arch.st = .hunt → s.arch.win = 0#64 → s.arch.fill = 0#4 → s.arch.en = true →
    hdrOk n i f = true → payload.length = n.toNat →
    let frame := header s.arch.sync n c i f ++ payload
    ∃ t, runWords (byteWords frame) s = .next t ∧
      (verify frame = true →
        t.arch.st = .hold ∧ t.arch.rxLen = n ∧ t.arch.rxCsum = c ∧ t.arch.rxId = i ∧ t.arch.rxFlags = f ∧
        t.arch.rej = s.arch.rej ∧ fbBytes t.arch.fb n.toNat = payload) ∧
      (verify frame = false →
        t.arch.st = .hunt ∧ t.arch.rej = true ∧ t.arch.rxLen = s.arch.rxLen ∧ t.arch.rxCsum = s.arch.rxCsum ∧
        t.arch.rxId = s.arch.rxId ∧ t.arch.rxFlags = s.arch.rxFlags)

/-- R171, R172, R176, R243: a header that fails a domain check is rejected at its flags byte, whatever its checksum, and writes no byte
of FB. -/
def Obligations.BadHeaderIsRejected : Prop :=
  ∀ (s : State) (n c : Half) (i f : Byte),
    s.arch.st = .hunt → s.arch.win = 0#64 → s.arch.fill = 0#4 → s.arch.en = true → hdrOk n i f = false →
    ∃ t, runWords (byteWords (header s.arch.sync n c i f)) s = .next t ∧
      t.arch.st = .hunt ∧ t.arch.fill = 0#4 ∧ t.arch.rej = true ∧ t.arch.fb = s.arch.fb ∧
      t.arch.rxLen = s.arch.rxLen ∧ t.arch.rxCsum = s.arch.rxCsum ∧ t.arch.rxId = s.arch.rxId ∧
      t.arch.rxFlags = s.arch.rxFlags
end

