-- ==== Sys2Proof/Laws/Decode.lean ====
section
/-! SUPPORT. The fields of a cycle word (30_encoding.md rule R101): packing and unpacking, and the OR of contributions (R111). -/

namespace Sys2Proof

/-- A bit of the high part of an append. -/
theorem getLsbD_append_of_le {v w : Nat} (x : BitVec v) (y : BitVec w) {k : Nat} (h : w ≤ k) :
    (x ++ y).getLsbD k = x.getLsbD (k - w) := by
  rw [BitVec.getLsbD_append, if_neg (by omega)]

/-- The inputs that two sets of inputs drive together (R111: the OR of contributions). -/
def CycleIn.or (c d : CycleIn) : CycleIn where
  rst := c.rst || d.rst
  inValid := c.inValid || d.inValid
  inData := c.inData ||| d.inData
  busEn := c.busEn || d.busEn
  busWe := c.busWe || d.busWe
  busAddr := c.busAddr ||| d.busAddr
  busWdata := c.busWdata ||| d.busWdata

theorem CycleIn.ofWord_or (c d : CycleWord) : CycleIn.ofWord (c ||| d) = (CycleIn.ofWord c).or (CycleIn.ofWord d) := by
  simp [CycleIn.ofWord, CycleIn.or, BitVec.extractLsb'_or]

/-- Unpacking undoes packing: no field of R101 overlaps another. -/
@[simp] theorem CycleIn.ofWord_toWord (c : CycleIn) : CycleIn.ofWord c.toWord = c := by
  obtain ⟨r, v, d, e, w, a, wd⟩ := c
  simp only [CycleIn.ofWord, CycleIn.toWord, CycleIn.mk.injEq]
  refine ⟨?_, ?_, ?_, ?_, ?_, ?_, ?_⟩
  · iterate 6 rw [getLsbD_append_of_le _ _ (by decide)]
    cases r <;> rfl
  · iterate 5 rw [getLsbD_append_of_le _ _ (by decide)]
    cases r <;> cases v <;> rfl
  · iterate 4 rw [BitVec.extractLsb'_append_eq_of_le (by decide)]
    rw [BitVec.extractLsb'_append_eq_of_add_le (by decide)]
    exact BitVec.extractLsb'_eq_self
  · iterate 3 rw [getLsbD_append_of_le _ _ (by decide)]
    rw [BitVec.getLsbD_append, if_pos (by decide)]
    cases e <;> rfl
  · iterate 2 rw [getLsbD_append_of_le _ _ (by decide)]
    rw [BitVec.getLsbD_append, if_pos (by decide)]
    cases w <;> rfl
  · rw [BitVec.extractLsb'_append_eq_of_le (by decide), BitVec.extractLsb'_append_eq_of_add_le (by decide)]
    exact BitVec.extractLsb'_eq_self
  · rw [BitVec.extractLsb'_append_eq_of_add_le (by decide)]
    exact BitVec.extractLsb'_eq_self

theorem ofBool_getLsbD {n : Nat} (c : BitVec n) (k : Nat) : BitVec.ofBool (c.getLsbD k) = c.extractLsb' k 1 := by
  ext j hj
  obtain rfl : j = 0 := by omega
  simp

/-- Packing undoes unpacking: the fields of R101 cover the word. -/
@[simp] theorem CycleIn.toWord_ofWord (c : CycleWord) : (CycleIn.ofWord c).toWord = c := by
  simp only [CycleIn.toWord, CycleIn.ofWord, ofBool_getLsbD]
  iterate 6 rw [BitVec.extractLsb'_append_extractLsb'_eq_extractLsb' (by decide)]
  exact BitVec.extractLsb'_eq_self

/-- Two words are equal exactly if their fields are. -/
theorem CycleIn.ofWord_inj {c d : CycleWord} : CycleIn.ofWord c = CycleIn.ofWord d ↔ c = d :=
  ⟨fun h => by rw [← CycleIn.toWord_ofWord c, ← CycleIn.toWord_ofWord d, h], fun h => h ▸ rfl⟩

/-- The word 0 drives nothing (R111: `IDLE` is 0). -/
@[simp] theorem CycleIn.ofWord_zero : CycleIn.ofWord 0 = CycleIn.idle := by decide

@[simp] theorem CycleIn.or_idle (c : CycleIn) : c.or CycleIn.idle = c := by
  simp [CycleIn.or, CycleIn.idle]

@[simp] theorem CycleIn.idle_or (c : CycleIn) : CycleIn.idle.or c = c := by
  simp [CycleIn.or, CycleIn.idle]

@[simp] theorem ofWord_encode (i : Instr) : CycleIn.ofWord (encode i) = i.inputs := CycleIn.ofWord_toWord _

/-- The address classes the decoder tells by bits are those `Instr.wf` tells by numbers (R75, R104). -/
theorem addrAligned_iff (a : BusAddr) : addrAligned a = true ↔ a.toNat % 4 = 0 := by
  simp only [addrAligned, beq_iff_eq]
  constructor
  · intro h
    have h1 := congrArg BitVec.toNat h
    simpa [BitVec.extractLsb'_toNat] using h1
  · intro h
    apply BitVec.eq_of_toNat_eq
    simpa [BitVec.extractLsb'_toNat] using h

theorem addrInRegisters_iff (a : BusAddr) : addrInRegisters a = true ↔ 0x10000 ≤ a.toNat := by
  have h : a.toNat < 2 ^ 17 := a.isLt
  simp only [addrInRegisters, BitVec.getLsbD, Nat.testBit_eq_decide_div_mod_eq, decide_eq_true_eq]
  omega

end Sys2Proof
end

