-- ==== Sys2Proof/Laws/State.lean ====
section
/-! SUPPORT. What each update of the state leaves in each field: one lemma per field per update. -/

namespace Sys2Proof.Machine

variable (s : State)

@[simp] theorem State.atEdge_params (f : Arch → Arch) : (s.atEdge f).params = s.params := rfl
@[simp] theorem State.atEdge_arch (f : Arch → Arch) : (s.atEdge f).arch = s.arch := rfl
@[simp] theorem State.atEdge_next (f : Arch → Arch) : (s.atEdge f).next = f s.next := rfl
@[simp] theorem State.atEdge_abort (f : Arch → Arch) : (s.atEdge f).abort = s.abort := rfl
@[simp] theorem State.atEdge_out (f : Arch → Arch) : (s.atEdge f).out = s.out := rfl
@[simp] theorem State.atEdge_inputs (f : Arch → Arch) : (s.atEdge f).inputs = s.inputs := rfl
@[simp] theorem State.atEdge_cycle (f : Arch → Arch) : (s.atEdge f).cycle = s.cycle := rfl

@[simp] theorem State.busReply_params (v : Word) : (s.busReply v).params = s.params := rfl
@[simp] theorem State.busReply_arch (v : Word) : (s.busReply v).arch = s.arch := rfl
@[simp] theorem State.busReply_next (v : Word) : (s.busReply v).next = s.next := rfl
@[simp] theorem State.busReply_abort (v : Word) : (s.busReply v).abort = s.abort := rfl
@[simp] theorem State.busReply_out (v : Word) : (s.busReply v).out = { s.out with busRdata := v, busErr := false } := rfl
@[simp] theorem State.busReply_inputs (v : Word) : (s.busReply v).inputs = s.inputs := rfl
@[simp] theorem State.busReply_cycle (v : Word) : (s.busReply v).cycle = s.cycle := rfl

@[simp] theorem State.raiseBusError_params (a : BusAddr) : (s.raiseBusError a).params = s.params := rfl
@[simp] theorem State.raiseBusError_arch (a : BusAddr) : (s.raiseBusError a).arch = s.arch := rfl
@[simp] theorem State.raiseBusError_next (a : BusAddr) : (s.raiseBusError a).next = s.next := rfl
@[simp] theorem State.raiseBusError_abort (a : BusAddr) : (s.raiseBusError a).abort = s.abort := rfl
@[simp] theorem State.raiseBusError_out (a : BusAddr) : (s.raiseBusError a).out = { s.out with busRdata := 0#32, busErr := true } := rfl
@[simp] theorem State.raiseBusError_inputs (a : BusAddr) : (s.raiseBusError a).inputs = s.inputs := rfl
@[simp] theorem State.raiseBusError_cycle (a : BusAddr) : (s.raiseBusError a).cycle = s.cycle := rfl

@[simp] theorem State.streamReply_params (b : Bool) : (s.streamReply b).params = s.params := rfl
@[simp] theorem State.streamReply_arch (b : Bool) : (s.streamReply b).arch = s.arch := rfl
@[simp] theorem State.streamReply_next (b : Bool) : (s.streamReply b).next = s.next := rfl
@[simp] theorem State.streamReply_abort (b : Bool) : (s.streamReply b).abort = s.abort := rfl
@[simp] theorem State.streamReply_out (b : Bool) : (s.streamReply b).out = { s.out with inReady := inReady s.arch, accepted := b && inReady s.arch } := rfl
@[simp] theorem State.streamReply_inputs (b : Bool) : (s.streamReply b).inputs = s.inputs := rfl
@[simp] theorem State.streamReply_cycle (b : Bool) : (s.streamReply b).cycle = s.cycle := rfl

@[simp] theorem State.driveAbort_params (b : Bool) : (s.driveAbort b).params = s.params := rfl
@[simp] theorem State.driveAbort_arch (b : Bool) : (s.driveAbort b).arch = s.arch := rfl
@[simp] theorem State.driveAbort_next (b : Bool) : (s.driveAbort b).next = s.next := rfl
@[simp] theorem State.driveAbort_abort (b : Bool) : (s.driveAbort b).abort = b := rfl
@[simp] theorem State.driveAbort_out (b : Bool) : (s.driveAbort b).out = s.out := rfl
@[simp] theorem State.driveAbort_inputs (b : Bool) : (s.driveAbort b).inputs = s.inputs := rfl
@[simp] theorem State.driveAbort_cycle (b : Bool) : (s.driveAbort b).cycle = s.cycle := rfl

@[simp] theorem State.beginCycle_params : (s.beginCycle).params = s.params := rfl
@[simp] theorem State.beginCycle_arch : (s.beginCycle).arch = s.arch := rfl
@[simp] theorem State.beginCycle_next : (s.beginCycle).next = s.arch := rfl
@[simp] theorem State.beginCycle_abort : (s.beginCycle).abort = false := rfl
@[simp] theorem State.beginCycle_out : (s.beginCycle).out = { inReady := false, accepted := false, busRdata := 0#32, busErr := false, irq := irqLine s.arch } := rfl
@[simp] theorem State.beginCycle_inputs : (s.beginCycle).inputs = s.inputs := rfl
@[simp] theorem State.beginCycle_cycle : (s.beginCycle).cycle = s.cycle := rfl

@[simp] theorem State.clockEdge_params : (s.clockEdge).params = s.params := rfl
@[simp] theorem State.clockEdge_arch : (s.clockEdge).arch = s.next := rfl
@[simp] theorem State.clockEdge_next : (s.clockEdge).next = s.next := rfl
@[simp] theorem State.clockEdge_abort : (s.clockEdge).abort = false := rfl
@[simp] theorem State.clockEdge_out : (s.clockEdge).out = s.out := rfl
@[simp] theorem State.clockEdge_inputs : (s.clockEdge).inputs = s.inputs := rfl
@[simp] theorem State.clockEdge_cycle : (s.clockEdge).cycle = s.cycle := rfl

@[simp] theorem State.sampleInputs_params : (s.sampleInputs).params = s.params := rfl
@[simp] theorem State.sampleInputs_arch : (s.sampleInputs).arch = s.arch := rfl
@[simp] theorem State.sampleInputs_next : (s.sampleInputs).next = s.next := rfl
@[simp] theorem State.sampleInputs_abort : (s.sampleInputs).abort = s.abort := rfl
@[simp] theorem State.sampleInputs_out : (s.sampleInputs).out = s.out := rfl
@[simp] theorem State.sampleInputs_inputs : (s.sampleInputs).inputs = s.inputs.tail := rfl
@[simp] theorem State.sampleInputs_cycle : (s.sampleInputs).cycle = s.cycle + 1 := rfl

@[simp] theorem State.driveWord_params (w : Nat) : (s.driveWord w).params = s.params := rfl
@[simp] theorem State.driveWord_arch (w : Nat) : (s.driveWord w).arch = s.arch := rfl
@[simp] theorem State.driveWord_next (w : Nat) : (s.driveWord w).next = s.next := rfl
@[simp] theorem State.driveWord_abort (w : Nat) : (s.driveWord w).abort = s.abort := rfl
@[simp] theorem State.driveWord_out (w : Nat) : (s.driveWord w).out = s.out := rfl
@[simp] theorem State.driveWord_inputs (w : Nat) : (s.driveWord w).inputs = BitVec.ofNat 61 w :: s.inputs.tail := rfl
@[simp] theorem State.driveWord_cycle (w : Nat) : (s.driveWord w).cycle = s.cycle := rfl

@[simp] theorem State.withInputs_params (ws : List CycleWord) : (s.withInputs ws).params = s.params := rfl
@[simp] theorem State.withInputs_arch (ws : List CycleWord) : (s.withInputs ws).arch = s.arch := rfl
@[simp] theorem State.withInputs_next (ws : List CycleWord) : (s.withInputs ws).next = s.next := rfl
@[simp] theorem State.withInputs_abort (ws : List CycleWord) : (s.withInputs ws).abort = s.abort := rfl
@[simp] theorem State.withInputs_out (ws : List CycleWord) : (s.withInputs ws).out = s.out := rfl
@[simp] theorem State.withInputs_inputs (ws : List CycleWord) : (s.withInputs ws).inputs = ws := rfl
@[simp] theorem State.withInputs_cycle (ws : List CycleWord) : (s.withInputs ws).cycle = s.cycle := rfl

/-- The inputs of the coming cycle, where the host has placed a word. -/
@[simp] theorem State.nextWord_withInputs_cons (w : CycleWord) (ws : List CycleWord) :
    (s.withInputs (w :: ws)).nextWord = w := rfl

@[simp] theorem State.nextWord_driveWord (w : Nat) : (s.driveWord w).nextWord = BitVec.ofNat 61 w := rfl

theorem State.nextWord_of_inputs {w : CycleWord} {ws : List CycleWord} (h : s.inputs = w :: ws) : s.nextWord = w := by
  simp [State.nextWord, h]

end Sys2Proof.Machine
end

