-- ==== Sys2Proof/Laws/Step.lean ====
section
/-! SUPPORT. What one cycle is made of (70_reset_and_hazards.md rule R280). -/

namespace Sys2Proof.Machine

@[simp] theorem andThen_next (s : State) (f : State → Host.Outcome State Fault Refusal) : andThen (.next s) f = f s := rfl

@[simp] theorem andThen_fault (r : Fault) (f : State → Host.Outcome State Fault Refusal) :
    andThen (.fault r) f = .fault r := rfl

@[simp] theorem andThen_refused (r : Refusal) (f : State → Host.Outcome State Fault Refusal) :
    andThen (.refused r) f = .refused r := rfl

/-- An outcome and what follows it answer a next state exactly when both do. -/
theorem andThen_eq_next {o : Host.Outcome State Fault Refusal} {f : State → Host.Outcome State Fault Refusal} {t : State} :
    andThen o f = .next t ↔ ∃ u, o = .next u ∧ f u = .next t := by
  cases o <;> simp

/-- A reset cycle: RESET, then the edge. -/
theorem runCycle_reset (s : State) :
    runCycle [.reset] s = .next (State.clockEdge { s.beginCycle.atEdge (resetElements s.params) with
      out := { s.beginCycle.out with inReady := false, accepted := false, busRdata := 0#32, busErr := false } }) := rfl

/-- Any other cycle: the bus operation, the stream operation, the edge. -/
theorem runCycle_pair (b i : Instr) (s : State) :
    runCycle [b, i] s = andThen (exec b s.beginCycle) fun t => andThen (exec i t) fun u => .next u.clockEdge := by
  simp only [runCycle, runOps]
  cases exec b s.beginCycle with
  | next t => simp only [andThen_next]; cases exec i t <;> rfl
  | fault r => rfl
  | refused r => rfl

end Sys2Proof.Machine
end

