-- ==== Sys2Proof/Laws/Bus.lean ====
section
/-! SUPPORT. Everything a bus operation can do, said once: the operation the decoder gives for the inputs `i` is `decode_bus` of
70_reset_and_hazards.md rule R280. -/

namespace Sys2Proof.Machine

/-- The elements a bus effect leaves (R203, R210 to R212, R215): `pre` before the edge, `n` after what is already applied. -/
def effectAtEdge (e : BusEffect) (wd : Word) (pre n : Arch) : Arch :=
  match e with
  | .none => n
  | .wrCtrl => { n with en := wd.getLsbD 0 }
  | .wrCmd => if releaseEffective wd pre || abortEffective wd pre then backToHunt n else n
  | .wrStatus => { n with rej := pre.rej && !wd.getLsbD 5 }
  | .wrSync => { n with sync := wd }
  | .wrIrqEn => { n with ieReady := wd.getLsbD 0, ieRej := wd.getLsbD 1 }

/-- The state after the bus operation of a cycle with the inputs `i`. -/
def afterBus (s : State) (i : CycleIn) : State :=
  { s with
    out := { s.out with busRdata := (decodeBusEffect s.arch i).1, busErr := (decodeBusEffect s.arch i).2.1 }
    next := effectAtEdge (decodeBusEffect s.arch i).2.2 i.busWdata s.arch s.next
    abort := if (decodeBusEffect s.arch i).2.2 = .wrCmd then abortEffective i.busWdata s.arch else s.abort }

/-- The bus operation of any cycle answers a next state, and this one. -/
theorem exec_decodeBus (s : State) (i : CycleIn) : exec (decodeBus i) s = .next (afterBus s i) := by
  obtain ⟨r, v, d, e, w, a, wd⟩ := i
  cases e
  · simp [decodeBus, exec, execBIdle, afterBus, decodeBusEffect, effectAtEdge, State.busReply]
  by_cases hr : a = 0x10000#17 ∨ a = 0x10004#17 ∨ a = 0x10008#17 ∨ a = 0x1000C#17 ∨ a = 0x10010#17 ∨ a = 0x10014#17 ∨
      a = 0x10018#17
  · rcases hr with h | h | h | h | h | h | h <;> subst h <;> cases w <;>
      simp [decodeBus, decodeRead, decodeWrite, exec, afterBus, decodeBusEffect, effectAtEdge, execRdCtrl, execRdCmd, execRdStatus,
        execRdSync, execRdRxInfo, execRdRxCsum, execRdIrqEn, execWrCtrl, execWrStatus, execWrSync, execWrRxInfo, execWrRxCsum,
        execWrIrqEn, State.busReply, State.atEdge, cmdValue, syncValue, wdEn, wdClearRej, wdReadyIe, wdRejIe]
    by_cases hc : (releaseEffective wd s.arch || abortEffective wd s.arch) = true <;>
      simp only [execWrCmd, hc, if_true, if_false, Bool.false_eq_true] <;> simp at hc <;>
      simp [hc, State.busReply, State.driveAbort, State.atEdge]
  · simp only [not_or] at hr
    have hn : a.toNat ≠ 0x10000 ∧ a.toNat ≠ 0x10004 ∧ a.toNat ≠ 0x10008 ∧ a.toNat ≠ 0x1000C ∧ a.toNat ≠ 0x10010 ∧
        a.toNat ≠ 0x10014 ∧ a.toNat ≠ 0x10018 := by
      refine ⟨?_, ?_, ?_, ?_, ?_, ?_, ?_⟩ <;> (intro h; have := hr; simp [← BitVec.toNat_inj, h] at this)
    have h1 := addrAligned_iff a
    have h2 := addrInRegisters_iff a
    by_cases ha : a.toNat % 4 = 0 <;> by_cases hb : a.toNat < 0x10000 <;> cases w
    all_goals
      first
        | (have e1 : addrAligned a = true := h1.2 ha)
        | (have e1 : addrAligned a = false := by simpa using (not_congr h1).2 ha)
      first
        | (have e2 : addrInRegisters a = false := by simpa using (not_congr h2).2 (by omega))
        | (have e2 : addrInRegisters a = true := h2.2 (by omega))
      simp [decodeBus, decodeRead, decodeWrite, hr, hn, ha, hb, e1, e2, exec, afterBus, decodeBusEffect, effectAtEdge, execRdFb,
        execWrFb, execRdRsvd, execWrRsvd, execRdMisaligned, execWrMisaligned, State.busReply, State.raiseBusError, fbIndex]
    rw [Nat.mod_eq_of_lt hb]

end Sys2Proof.Machine
end

