-- ==== Sys2Proof/Laws/Checksum.lean ====
section
/-! SUPPORT. The checksum functions as arithmetic (40_checksum.md rules R131 to R138). -/

namespace Sys2Proof.Machine

theorem and_0xFFFF (n : Nat) : n &&& 0xFFFF = n % 65536 := Nat.and_two_pow_sub_one_eq_mod n 16

theorem shiftRight_16 (n : Nat) : n >>> 16 = n / 65536 := Nat.shiftRight_eq_div_pow n 16

/-- Enough iterations of the loop of R132 leave the residue in `1 .. 65535`, and 0 of 0. -/
theorem foldLoop_closed (k s : Nat) (h : s ≤ k) : foldLoop k s = if s = 0 then 0 else (s - 1) % 65535 + 1 := by
  induction k generalizing s with
  | zero => obtain rfl : s = 0 := by omega
            rfl
  | succ k ih =>
    unfold foldLoop
    split
    · rw [and_0xFFFF, shiftRight_16, ih _ (by omega), if_neg (by omega), if_neg (by omega)]
      omega
    · split <;> omega

/-- `fold` in closed form (R132). -/
theorem fold_closed (s : Nat) : fold s = if s = 0 then 0 else (s - 1) % 65535 + 1 := foldLoop_closed s s le_rfl

/-- Folding a part first changes nothing. -/
theorem fold_fold_add (a b : Nat) : fold (fold a + b) = fold (a + b) := by
  simp only [fold_closed]
  split <;> split <;> (try split) <;> omega

/-- The exact sum of a concatenation at an even offset (R133). -/
theorem wordsum_append : ∀ (xs ys : List Byte), xs.length % 2 = 0 → wordsum (xs ++ ys) = wordsum xs + wordsum ys
  | [], ys, _ => by simp [wordsum]
  | [x], ys, h => by simp at h
  | x :: y :: xs, ys, h => by
    simp only [List.cons_append, wordsum]
    rw [wordsum_append xs ys (by simp at h; omega)]; omega

/-- The value of an append, high part first. -/
theorem toNat_append {n m : Nat} (x : BitVec n) (y : BitVec m) : (x ++ y).toNat = x.toNat * 2 ^ m + y.toNat := by
  rw [BitVec.toNat_append, Nat.shiftLeft_eq, Nat.mul_comm, Nat.two_pow_add_eq_or_of_lt y.isLt]

/-- A byte's contribution as a number (R138). -/
theorem contrib_toNat (k : Nat) (b : Byte) : (contrib k b).toNat = if k % 2 = 0 then b.toNat * 256 else b.toNat := by
  unfold contrib
  split <;> rw [toNat_append] <;> simp

end Sys2Proof.Machine
end

