-- ==== Sys2Proof/Laws/Memory.lean ====
section
/-! SUPPORT. The frame buffer as data: a read after a write, and the canonical form that every write keeps. -/

namespace Sys2Proof.Machine

@[simp] theorem Memory.read?_nil (a : Nat) : Memory.read? [] a = none := rfl

theorem Memory.read?_write_same (m : Memory) (a : Nat) (b : Byte) : (m.write a b).read? a = some b := by
  induction m with
  | nil => simp [Memory.write, Memory.read?]
  | cons x m ih =>
    obtain ⟨k, c⟩ := x
    unfold Memory.write
    split
    · simp [Memory.read?]
    · split
      · simp [Memory.read?]
      · simp [Memory.read?, *]

theorem Memory.read?_write_other (m : Memory) {a j : Nat} (b : Byte) (h : j ≠ a) :
    (m.write a b).read? j = m.read? j := by
  induction m with
  | nil => simp [Memory.write, Memory.read?, h]
  | cons x m ih =>
    obtain ⟨k, c⟩ := x
    unfold Memory.write
    split
    · simp [Memory.read?, h]
    · split
      · rename_i h1; subst h1; simp [Memory.read?, h]
      · simp [Memory.read?, ih]

/-- A read of one byte after a write of one byte. -/
theorem fbRead_write (m : Memory) (a j : Nat) (b : Byte) :
    fbRead (m.write a b) j = if j = a then b else fbRead m j := by
  by_cases h : j = a
  · subst h; simp [fbRead, Memory.read?_write_same]
  · simp [fbRead, Memory.read?_write_other m b h, h]

theorem Memory.risingFrom_write {lo : Nat} {m : Memory} {a : Nat} (b : Byte) (h : Memory.risingFrom lo m = true)
    (hlo : lo ≤ a) (ha : a < fbSize) : Memory.risingFrom lo (m.write a b) = true := by
  induction m generalizing lo with
  | nil => simp [Memory.write, Memory.risingFrom, hlo, ha]
  | cons x m ih =>
    obtain ⟨k, c⟩ := x
    simp only [Memory.risingFrom, Bool.and_eq_true, decide_eq_true_eq] at h
    obtain ⟨⟨h1, h2⟩, h3⟩ := h
    unfold Memory.write
    split
    · simp [Memory.risingFrom, *]
    · split
      · rename_i h5; subst h5; simp [Memory.risingFrom, *]
      · have := ih h3 (by omega); simp [Memory.risingFrom, *]

/-- A write inside the frame buffer keeps the canonical form. -/
theorem Memory.wf_write {m : Memory} {a : Nat} (b : Byte) (h : m.wf = true) (ha : a < fbSize) :
    (m.write a b).wf = true :=
  Memory.risingFrom_write b h (Nat.zero_le a) ha

theorem Memory.read?_lt_none {lo j : Nat} {m : Memory} (h : Memory.risingFrom lo m = true) (hj : j < lo) :
    m.read? j = none := by
  induction m generalizing lo with
  | nil => rfl
  | cons x m ih =>
    obtain ⟨k, c⟩ := x
    simp only [Memory.risingFrom, Bool.and_eq_true, decide_eq_true_eq] at h
    have hk : j ≠ k := by omega
    simp [Memory.read?, hk, ih h.2 (by omega)]

theorem Memory.risingFrom_ext {lo : Nat} {m m' : Memory} (h : Memory.risingFrom lo m = true)
    (h' : Memory.risingFrom lo m' = true) (hr : ∀ j, m.read? j = m'.read? j) : m = m' := by
  induction m generalizing lo m' with
  | nil =>
    cases m' with
    | nil => rfl
    | cons y m' => have := hr y.1; simp [Memory.read?] at this
  | cons x m ih =>
    obtain ⟨k, c⟩ := x
    cases m' with
    | nil => have := hr k; simp [Memory.read?] at this
    | cons y m' =>
      obtain ⟨k', c'⟩ := y
      simp only [Memory.risingFrom, Bool.and_eq_true, decide_eq_true_eq] at h h'
      have hkk : k = k' := by
        rcases Nat.lt_trichotomy k k' with hlt | heq | hgt
        · have h1 := hr k
          have h2 : k ≠ k' := by omega
          simp [Memory.read?, h2, Memory.read?_lt_none h'.2 (show k < k' + 1 by omega)] at h1
        · exact heq
        · have h1 := hr k'
          have h2 : k' ≠ k := by omega
          simp [Memory.read?, h2, Memory.read?_lt_none h.2 (show k' < k + 1 by omega)] at h1
      subst hkk
      have hc := hr k
      simp only [Memory.read?, if_pos, Option.some.injEq] at hc
      subst hc
      have : m = m' := by
        refine ih h.2 h'.2 fun j => ?_
        by_cases hj : j = k
        · subst hj
          rw [Memory.read?_lt_none h.2 (by omega), Memory.read?_lt_none h'.2 (by omega)]
        · have := hr j; simpa [Memory.read?, hj] using this
      rw [this]

/-- Equal memories are equal data: two memories in canonical form that list the same bytes are the same list. -/
theorem Memory.wf_ext {m m' : Memory} (h : m.wf = true) (h' : m'.wf = true) (hr : ∀ j, m.read? j = m'.read? j) : m = m' :=
  Memory.risingFrom_ext h h' hr

end Sys2Proof.Machine
end

