-- ==== Sys2Proof/Laws/OpcodeTable.lean ====
section
/-! SUPPORT. A row of spec/opcode_table.json over the fields of a cycle word (30_encoding.md rules R101, R106). -/

namespace Sys2Proof.Machine

/-- The inputs that a mask keeps, field by field. -/
def maskInputs (c m : CycleIn) : CycleIn where
  rst := c.rst && m.rst
  inValid := c.inValid && m.inValid
  inData := c.inData &&& m.inData
  busEn := c.busEn && m.busEn
  busWe := c.busWe && m.busWe
  busAddr := c.busAddr &&& m.busAddr
  busWdata := c.busWdata &&& m.busWdata

theorem ofWord_and (c m : CycleWord) : CycleIn.ofWord (c &&& m) = maskInputs (CycleIn.ofWord c) (CycleIn.ofWord m) := by
  simp [CycleIn.ofWord, maskInputs, BitVec.extractLsb'_and]

/-- A word matches a row exactly if its fields do. -/
theorem OpcodeRow.matches_iff (r : OpcodeRow) (c : CycleWord) :
    r.matches c = true ↔ maskInputs (CycleIn.ofWord c) (CycleIn.ofWord r.mask) = CycleIn.ofWord r.pattern := by
  rw [← ofWord_and, CycleIn.ofWord_inj, OpcodeRow.matches, beq_iff_eq]

end Sys2Proof.Machine
end

