-- ==== Sys2Proof/Laws/Parser.lean ====
section
/-! SUPPORT. Everything a taken stream byte can do, said once per rule of 41_stream.md. -/

namespace Sys2Proof.Machine

/-- `hunt_byte` shifts the window or finds the sync pattern (R165, R166). -/
theorem huntByte_cases (b : Byte) (pre nx : Arch) :
    (min (pre.fill.toNat + 1) 8 = 8 ∧ shiftWindow pre.win b = syncPattern pre.sync ∧ huntByte b pre nx = syncFound pre nx) ∨
    (¬ (min (pre.fill.toNat + 1) 8 = 8 ∧ shiftWindow pre.win b = syncPattern pre.sync) ∧
      huntByte b pre nx =
        { nx with win := shiftWindow pre.win b, fill := BitVec.ofNat 4 (min (pre.fill.toNat + 1) 8) }) := by
  unfold huntByte
  by_cases h : min (pre.fill.toNat + 1) 8 = 8 ∧ shiftWindow pre.win b = syncPattern pre.sync
  · exact .inl ⟨h.1, h.2, if_pos h⟩
  · exact .inr ⟨h, if_neg h⟩

/-- A frame judged by its checksum is accepted or rejected (R140, R176, R177). -/
theorem judgeChecksum_cases (acc1 : Half) (f : Byte) (pre nx : Arch) :
    (acc1 = 0xFFFF#16 ∧ judgeChecksum acc1 f pre nx = accept f pre nx) ∨
    (acc1 ≠ 0xFFFF#16 ∧ judgeChecksum acc1 f pre nx = reject nx) := by
  unfold judgeChecksum checksumGood
  by_cases h : acc1 = 0xFFFF#16 <;> simp [h]

/-- The flags byte rejects the header, judges a control frame or starts a payload (R171). -/
theorem flagsByte_cases (b : Byte) (pre nx : Arch) :
    (hdrOk pre.hLen pre.hId b = false ∧ flagsByte b pre nx = reject { nx with acc := accWith 13 b pre, hFlags := b }) ∨
    (hdrOk pre.hLen pre.hId b = true ∧ pre.hLen = 0#16 ∧
      flagsByte b pre nx = judgeChecksum (accWith 13 b pre) b pre { nx with acc := accWith 13 b pre, hFlags := b }) ∨
    (hdrOk pre.hLen pre.hId b = true ∧ pre.hLen ≠ 0#16 ∧
      flagsByte b pre nx = { nx with acc := accWith 13 b pre, hFlags := b, st := .pay, pcnt := 0#16 }) := by
  unfold flagsByte
  cases hk : hdrOk pre.hLen pre.hId b
  · exact .inl ⟨rfl, rfl⟩
  · by_cases h0 : pre.hLen = 0#16
    · exact .inr (.inl ⟨rfl, h0, by simp [h0]⟩)
    · exact .inr (.inr ⟨rfl, h0, by simp [h0]⟩)

/-- A header byte is one of the six of R168 to R171, by `hcnt`. -/
theorem hdrByte_cases {b : Byte} {pre nx a : Arch} (h : hdrByte b pre nx = .ok a) :
    (pre.hcnt = 0#3 ∧ a = { nx with acc := accWith 8 b pre, hLen := setHigh pre.hLen b, hcnt := 1#3 }) ∨
    (pre.hcnt = 1#3 ∧ a = { nx with acc := accWith 9 b pre, hLen := setLow pre.hLen b, hcnt := 2#3 }) ∨
    (pre.hcnt = 2#3 ∧ a = { nx with acc := accWith 10 b pre, hCsum := setHigh pre.hCsum b, hcnt := 3#3 }) ∨
    (pre.hcnt = 3#3 ∧ a = { nx with acc := accWith 11 b pre, hCsum := setLow pre.hCsum b, hcnt := 4#3 }) ∨
    (pre.hcnt = 4#3 ∧ a = { nx with acc := accWith 12 b pre, hId := b, hcnt := 5#3 }) ∨
    (pre.hcnt = 5#3 ∧ a = flagsByte b pre nx) := by
  unfold hdrByte at h
  split at h <;> rename_i hk <;> (try cases h)
  · exact .inl ⟨BitVec.eq_of_toNat_eq hk, rfl⟩
  · exact .inr (.inl ⟨BitVec.eq_of_toNat_eq hk, rfl⟩)
  · exact .inr (.inr (.inl ⟨BitVec.eq_of_toNat_eq hk, rfl⟩))
  · exact .inr (.inr (.inr (.inl ⟨BitVec.eq_of_toNat_eq hk, rfl⟩)))
  · exact .inr (.inr (.inr (.inr (.inl ⟨BitVec.eq_of_toNat_eq hk, rfl⟩))))
  · exact .inr (.inr (.inr (.inr (.inr ⟨BitVec.eq_of_toNat_eq hk, rfl⟩))))

/-- A payload byte is stored, and the last one completes the frame (R173, R174). -/
theorem payByte_cases {b : Byte} {pre nx a : Arch} (h : payByte b pre nx = .ok a) :
    pre.pcnt.toNat < fbSize ∧
    ((pre.pcnt.toNat + 1 = pre.hLen.toNat ∧
        a = judgeChecksum (accWith (14 + pre.pcnt.toNat) b pre) pre.hFlags pre
          { nx with
            fb := nx.fb.write pre.pcnt.toNat b
            acc := accWith (14 + pre.pcnt.toNat) b pre
            pcnt := pre.pcnt + 1#16 }) ∨
      (pre.pcnt.toNat + 1 ≠ pre.hLen.toNat ∧
        a = { nx with
          fb := nx.fb.write pre.pcnt.toNat b
          acc := accWith (14 + pre.pcnt.toNat) b pre
          pcnt := pre.pcnt + 1#16 })) := by
  simp only [payByte] at h
  split at h
  · rename_i hp
    refine ⟨hp, ?_⟩
    split at h
    · rename_i hl; exact .inl ⟨hl, by cases h; rfl⟩
    · rename_i hl; exact .inr ⟨hl, by cases h; rfl⟩
  · cases h

/-- A taken byte does what its parser state's rule says (R163). -/
theorem streamEffect_cases {b : Byte} {pre nx a : Arch} (h : streamEffect b pre nx = .ok a) :
    (pre.st = .hunt ∧ a = huntByte b pre nx) ∨ (pre.st = .hdr ∧ hdrByte b pre nx = .ok a) ∨
    (pre.st = .pay ∧ payByte b pre nx = .ok a) ∨ (pre.st = .hold ∧ a = nx) := by
  unfold streamEffect at h
  split at h <;> rename_i hs
  · exact .inl ⟨hs, by cases h; rfl⟩
  · exact .inr (.inl ⟨hs, h⟩)
  · exact .inr (.inr (.inl ⟨hs, h⟩))
  · exact .inr (.inr (.inr ⟨hs, by cases h; rfl⟩))

/-- A byte stops the machine only in the states R35 and R46 say no run reaches (log entry 7). -/
theorem streamEffect_error {b : Byte} {pre nx : Arch} {f : Fault} (h : streamEffect b pre nx = .error f) :
    (pre.st = .hdr ∧ 6 ≤ pre.hcnt.toNat) ∨ (pre.st = .pay ∧ fbSize ≤ pre.pcnt.toNat) := by
  unfold streamEffect at h
  split at h <;> rename_i hs
  · cases h
  · refine .inl ⟨hs, ?_⟩
    by_contra hlt
    have hc : pre.hcnt.toNat = 0 ∨ pre.hcnt.toNat = 1 ∨ pre.hcnt.toNat = 2 ∨ pre.hcnt.toNat = 3 ∨ pre.hcnt.toNat = 4 ∨
        pre.hcnt.toNat = 5 := by omega
    rcases hc with hc | hc | hc | hc | hc | hc <;> simp [hdrByte, hc] at h
  · refine .inr ⟨hs, ?_⟩
    simp only [payByte] at h
    split at h
    · split at h <;> cases h
    · omega
  · cases h

/-- What S_BYTE can do (R161, R163): an untaken or dropped byte changes no element, a taken one has its stream effect. -/
theorem execSByte_cases {d : Byte} {s t : State} (h : execSByte d s = .next t) :
    ((inReady s.arch = false ∨ s.abort = true) ∧ t = s.streamReply true) ∨
    (inReady s.arch = true ∧ s.abort = false ∧
      ∃ a, streamEffect d s.arch s.next = .ok a ∧ t = (s.streamReply true).atEdge fun _ => a) := by
  unfold execSByte at h
  split at h
  · rename_i hc
    simp only [Bool.and_eq_true, Bool.not_eq_true'] at hc
    refine .inr ⟨hc.1, hc.2, ?_⟩
    split at h
    · rename_i a ha; exact ⟨a, ha, by cases h; rfl⟩
    · cases h
  · rename_i hc
    refine .inl ⟨?_, by cases h; rfl⟩
    cases hr : inReady s.arch <;> cases ha : s.abort <;> simp_all

end Sys2Proof.Machine
end

