-- ==== Sys2Proof/Laws/PerInstr.lean ====
section
/-! SUPPORT. Per operation: a well-formed operation's own word (30_encoding.md rule R111) matches its own row of
spec/opcode_table.json, whatever its operands (R106). -/

namespace Sys2Proof.Laws.TableRow

open Sys2Proof Sys2Proof.Machine

/-- The row with the operation's mnemonic matches the operation's word. -/
def Statement (i : Instr) : Prop :=
  i.wf = true → ∃ r ∈ opcodeRows, r.mnemonic = mnemonicOf i ∧ r.matches (encode i) = true

/-- A row named by its mask and pattern does, if the fields agree. -/
theorem of_row {i : Instr} (m p : CycleWord) (hr : ⟨mnemonicOf i, m, p⟩ ∈ opcodeRows)
    (hf : maskInputs i.inputs (CycleIn.ofWord m) = CycleIn.ofWord p) : Statement i :=
  fun _ => ⟨_, hr, rfl, (OpcodeRow.matches_iff _ _).2 (by rw [ofWord_encode]; exact hf)⟩

theorem reset : Statement .reset := of_row 0x1000000000000000 0x1000000000000000 (by decide) (by decide)
theorem sIdle : Statement .sIdle := of_row 0x0800000000000000 0 (by decide) (by decide)

theorem sByte (d : Byte) : Statement (.sByte d) :=
  of_row 0x0800000000000000 0x0800000000000000 (by simp only [mnemonicOf]; decide)
    (by simp [maskInputs, Instr.inputs, CycleIn.idle, CycleIn.ofWord])

theorem bIdle : Statement .bIdle := of_row 0x0004000000000000 0 (by decide) (by decide)

/-- A register write's word keeps its fixed bits whatever the write data. -/
theorem write_fields (a : BusAddr) (wd : Word) :
    maskInputs (writeInputs a wd) (CycleIn.ofWord 0x0007FFFF00000000) = writeInputs a 0 := by
  have h : CycleIn.ofWord 0x0007FFFF00000000 =
      { CycleIn.idle with busEn := true, busWe := true, busAddr := BitVec.allOnes 17 } := by decide
  rw [h]
  simp only [maskInputs, writeInputs, CycleIn.idle, BitVec.and_allOnes]
  simp

theorem rdCtrl : Statement .rdCtrl := of_row 0x0007FFFF00000000 0x0005000000000000 (by decide) (by decide)
theorem rdCmd : Statement .rdCmd := of_row 0x0007FFFF00000000 0x0005000400000000 (by decide) (by decide)
theorem rdStatus : Statement .rdStatus := of_row 0x0007FFFF00000000 0x0005000800000000 (by decide) (by decide)
theorem rdSync : Statement .rdSync := of_row 0x0007FFFF00000000 0x0005000C00000000 (by decide) (by decide)
theorem rdRxInfo : Statement .rdRxInfo := of_row 0x0007FFFF00000000 0x0005001000000000 (by decide) (by decide)
theorem rdRxCsum : Statement .rdRxCsum := of_row 0x0007FFFF00000000 0x0005001400000000 (by decide) (by decide)
theorem rdIrqEn : Statement .rdIrqEn := of_row 0x0007FFFF00000000 0x0005001800000000 (by decide) (by decide)

theorem wrCtrl (wd : Word) : Statement (.wrCtrl wd) :=
  of_row 0x0007FFFF00000000 0x0007000000000000 (by simp only [mnemonicOf]; decide) ((write_fields _ wd).trans (by decide))
theorem wrCmd (wd : Word) : Statement (.wrCmd wd) :=
  of_row 0x0007FFFF00000000 0x0007000400000000 (by simp only [mnemonicOf]; decide) ((write_fields _ wd).trans (by decide))
theorem wrStatus (wd : Word) : Statement (.wrStatus wd) :=
  of_row 0x0007FFFF00000000 0x0007000800000000 (by simp only [mnemonicOf]; decide) ((write_fields _ wd).trans (by decide))
theorem wrSync (wd : Word) : Statement (.wrSync wd) :=
  of_row 0x0007FFFF00000000 0x0007000C00000000 (by simp only [mnemonicOf]; decide) ((write_fields _ wd).trans (by decide))
theorem wrRxInfo (wd : Word) : Statement (.wrRxInfo wd) :=
  of_row 0x0007FFFF00000000 0x0007001000000000 (by simp only [mnemonicOf]; decide) ((write_fields _ wd).trans (by decide))
theorem wrRxCsum (wd : Word) : Statement (.wrRxCsum wd) :=
  of_row 0x0007FFFF00000000 0x0007001400000000 (by simp only [mnemonicOf]; decide) ((write_fields _ wd).trans (by decide))
theorem wrIrqEn (wd : Word) : Statement (.wrIrqEn wd) :=
  of_row 0x0007FFFF00000000 0x0007001800000000 (by simp only [mnemonicOf]; decide) ((write_fields _ wd).trans (by decide))

/-- The address bits that R106's FB and reserved rows look at: bit 16 and bits 1:0. -/
theorem addr_class {a : BusAddr} (h : a.toNat % 4 = 0) :
    a &&& 0x10003#17 = if 0x10000 ≤ a.toNat then 0x10000#17 else 0#17 := by
  apply BitVec.eq_of_toNat_eq
  have hlt : a.toNat < 2 ^ 17 := a.isLt
  have h3 : a.toNat &&& 3 = 0 := by rw [Nat.and_two_pow_sub_one_eq_mod a.toNat 2]; exact h
  have h16 : a.toNat &&& 0x10000 = if 0x10000 ≤ a.toNat then 0x10000 else 0 := by
    rw [show (0x10000 : Nat) = 2 ^ 16 from rfl, Nat.and_two_pow, Nat.testBit_eq_decide_div_mod_eq]
    split <;> simp <;> omega
  have hsum : a.toNat &&& 0x10003 = a.toNat &&& (0x10000 ||| 3) := rfl
  rw [BitVec.toNat_and, show (0x10003#17).toNat = 0x10003 from rfl, hsum, Nat.and_or_distrib_left, h3, h16]
  split <;> rfl

theorem rdFb (a : BusAddr) : Statement (.rdFb a) := fun h =>
  of_row 0x0007000300000000 0x0004000000000000 (by simp only [mnemonicOf]; decide) (by
    simp only [Instr.wf, wfFbAddr, Bool.and_eq_true, decide_eq_true_eq] at h
    have ha := addr_class h.1
    rw [if_neg (by omega)] at ha
    simp [maskInputs, Instr.inputs, readInputs, CycleIn.idle, CycleIn.ofWord, ha]) h

theorem wrFb (a : BusAddr) (wd : Word) : Statement (.wrFb a wd) := fun h =>
  of_row 0x0007000300000000 0x0006000000000000 (by simp only [mnemonicOf]; decide) (by
    simp only [Instr.wf, wfFbAddr, Bool.and_eq_true, decide_eq_true_eq] at h
    have ha := addr_class h.1
    rw [if_neg (by omega)] at ha
    simp [maskInputs, Instr.inputs, writeInputs, CycleIn.idle, CycleIn.ofWord, ha]) h

theorem rdRsvd (a : BusAddr) : Statement (.rdRsvd a) := fun h =>
  of_row 0x0007000300000000 0x0005000000000000 (by simp only [mnemonicOf]; decide) (by
    simp only [Instr.wf, wfRsvdAddr, Bool.and_eq_true, decide_eq_true_eq] at h
    have ha := addr_class h.1
    rw [if_pos (by omega)] at ha
    simp [maskInputs, Instr.inputs, readInputs, CycleIn.idle, CycleIn.ofWord, ha]) h

theorem wrRsvd (a : BusAddr) (wd : Word) : Statement (.wrRsvd a wd) := fun h =>
  of_row 0x0007000300000000 0x0007000000000000 (by simp only [mnemonicOf]; decide) (by
    simp only [Instr.wf, wfRsvdAddr, Bool.and_eq_true, decide_eq_true_eq] at h
    have ha := addr_class h.1
    rw [if_pos (by omega)] at ha
    simp [maskInputs, Instr.inputs, writeInputs, CycleIn.idle, CycleIn.ofWord, ha]) h

theorem rdMisaligned (a : BusAddr) : Statement (.rdMisaligned a) :=
  of_row 0x0006000000000000 0x0004000000000000 (by simp only [mnemonicOf]; decide)
    (by simp [maskInputs, Instr.inputs, readInputs, CycleIn.idle, CycleIn.ofWord])

theorem wrMisaligned (a : BusAddr) (wd : Word) : Statement (.wrMisaligned a wd) :=
  of_row 0x0006000000000000 0x0006000000000000 (by simp only [mnemonicOf]; decide)
    (by simp [maskInputs, Instr.inputs, writeInputs, CycleIn.idle, CycleIn.ofWord])

end Sys2Proof.Laws.TableRow
end

