-- ==== Sys2Proof/Tests/Slice0.lean ====
section
/-! SUPPORT. Small tests: ill-formed operations are refused, words written out from the spec's encoding decode, one step at a time
against the vectors of 95_test_vectors.md, and a witness for the hypotheses of every obligation that has some. -/

namespace Sys2Proof.Tests

open Sys2Proof Sys2Proof.Machine

/-! ## Well-formedness (R100, R106) -/

theorem test_wf_refuses_fb_address_outside_window : (Instr.rdFb 0x10000).wf = false := by decide
theorem test_wf_refuses_fb_address_misaligned : (Instr.rdFb 0x0FFFE).wf = false := by decide
theorem test_wf_refuses_fb_write_outside_window : (Instr.wrFb 0x10000 0).wf = false := by decide
theorem test_wf_refuses_fb_write_misaligned : (Instr.wrFb 1 0).wf = false := by decide
theorem test_wf_refuses_reserved_at_register : (Instr.rdRsvd 0x10018).wf = false := by decide
theorem test_wf_refuses_reserved_misaligned : (Instr.rdRsvd 0x1001D).wf = false := by decide
theorem test_wf_refuses_reserved_write_at_register : (Instr.wrRsvd 0x10018 0).wf = false := by decide
theorem test_wf_refuses_reserved_write_misaligned : (Instr.wrRsvd 0x1FFFF 0).wf = false := by decide
theorem test_wf_refuses_aligned_as_misaligned : (Instr.rdMisaligned 0x10008).wf = false := by decide
theorem test_wf_refuses_aligned_write_as_misaligned : (Instr.wrMisaligned 0 0).wf = false := by decide
theorem test_wf_refuses_empty_cycle : cycleWf [] = false := by decide
theorem test_wf_refuses_stream_alone : cycleWf [.sByte 1] = false := by decide
theorem test_wf_refuses_wrong_order : cycleWf [.sByte 1, .bIdle] = false := by decide
theorem test_wf_refuses_reset_with_stream : cycleWf [.reset, .sIdle] = false := by decide
theorem test_wf_refuses_ill_formed_part : cycleWf [.rdFb 2, .sIdle] = false := by decide

/-! ## Decoding: the fields of R101, most significant first: r, v, d, e, w, a, wd -/

/-- The word of the fields as R101 lists them. -/
def bits (r v : BitVec 1) (d : BitVec 8) (e w : BitVec 1) (a : BitVec 17) (wd : BitVec 32) : CycleWord :=
  r ++ (v ++ (d ++ (e ++ (w ++ (a ++ wd)))))

-- R102 and X8's word: nothing else of a reset cycle counts
theorem test_decode_reset : decodeCycle (bits 1 1 0b11011100 1 1 0b10000000000000000 1) = [.reset] := by decide
theorem test_decode_sIdle : decodeCycle (bits 0 0 0b11111111 0 0 0 0) = [.bIdle, .sIdle] := by decide
theorem test_decode_sByte : decodeCycle (bits 0 1 0b10110100 0 0 0 0) = [.bIdle, .sByte 0xB4] := by decide
theorem test_decode_bIdle : decodeCycle (bits 0 0 0 0 1 0b10000000000000100 3) = [.bIdle, .sIdle] := by decide
theorem test_decode_rdCtrl : decodeCycle (bits 0 0 0 1 0 0b10000000000000000 7) = [.rdCtrl, .sIdle] := by decide
theorem test_decode_wrCtrl : decodeCycle (bits 0 0 0 1 1 0b10000000000000000 1) = [.wrCtrl 1, .sIdle] := by decide
theorem test_decode_rdCmd : decodeCycle (bits 0 0 0 1 0 0b10000000000000100 0) = [.rdCmd, .sIdle] := by decide
theorem test_decode_wrCmd : decodeCycle (bits 0 1 0x69 1 1 0b10000000000000100 2) = [.wrCmd 2, .sByte 0x69] := by decide
theorem test_decode_rdStatus : decodeCycle (bits 0 1 0xDC 1 0 0b10000000000001000 0) = [.rdStatus, .sByte 0xDC] := by decide
theorem test_decode_wrStatus : decodeCycle (bits 0 0 0 1 1 0b10000000000001000 32) = [.wrStatus 32, .sIdle] := by decide
theorem test_decode_rdSync : decodeCycle (bits 0 0 0 1 0 0b10000000000001100 0) = [.rdSync, .sIdle] := by decide
theorem test_decode_wrSync : decodeCycle (bits 0 0 0 1 1 0b10000000000001100 0x12345678) = [.wrSync 0x12345678, .sIdle] := by decide
theorem test_decode_rdRxInfo : decodeCycle (bits 0 0 0 1 0 0b10000000000010000 0) = [.rdRxInfo, .sIdle] := by decide
theorem test_decode_wrRxInfo : decodeCycle (bits 0 0 0 1 1 0b10000000000010000 0xFFFFFFFF) = [.wrRxInfo 0xFFFFFFFF, .sIdle] := by decide
theorem test_decode_rdRxCsum : decodeCycle (bits 0 0 0 1 0 0b10000000000010100 0) = [.rdRxCsum, .sIdle] := by decide
theorem test_decode_wrRxCsum : decodeCycle (bits 0 0 0 1 1 0b10000000000010100 5) = [.wrRxCsum 5, .sIdle] := by decide
theorem test_decode_rdIrqEn : decodeCycle (bits 0 0 0 1 0 0b10000000000011000 0) = [.rdIrqEn, .sIdle] := by decide
theorem test_decode_wrIrqEn : decodeCycle (bits 0 0 0 1 1 0b10000000000011000 3) = [.wrIrqEn 3, .sIdle] := by decide
theorem test_decode_rdFb : decodeCycle (bits 0 0 0 1 0 0b01111111111111100 0) = [.rdFb 0xFFFC, .sIdle] := by decide
theorem test_decode_wrFb : decodeCycle (bits 0 0 0 1 1 0b00000000000000100 9) = [.wrFb 4 9, .sIdle] := by decide
theorem test_decode_rdRsvd : decodeCycle (bits 0 0 0 1 0 0b10000000000011100 0) = [.rdRsvd 0x1001C, .sIdle] := by decide
theorem test_decode_wrRsvd : decodeCycle (bits 0 0 0 1 1 0b11111111111111100 5) = [.wrRsvd 0x1FFFC 5, .sIdle] := by decide
theorem test_decode_rdMisaligned : decodeCycle (bits 0 0 0 1 0 0b10000000000000001 0) = [.rdMisaligned 0x10001, .sIdle] := by decide
theorem test_decode_wrMisaligned : decodeCycle (bits 0 0 0 1 1 0b01111111111111110 8) = [.wrMisaligned 0xFFFE 8, .sIdle] := by decide

-- The words of spec/opcode_table.json and R100 (log entries 9 and 10).
theorem test_table_word_stream_idle : decodeTableWord 60 0 = some .sIdle := by decide
theorem test_table_word_bus_idle : decodeTableWord 51 0 = some .bIdle := by decide
theorem test_table_word_bus : decodeTableWord 51 0x0005000800000000 = some .rdStatus := by decide
theorem test_table_word_too_wide : cycleWordOfNat (2 ^ 61) = .error .notACycleWord ∧ decodeTableWord 62 (2 ^ 61) = none := by decide

-- R109, R111: a line of 95_test_vectors.md (PROG3, cycle 19).
theorem test_line_word :
    Line.word (.byteBus 0x69 (.wr (.reg .cmd) 2)) = 0x0B4F000400000002 := by decide

/-! ## One cycle, against 95_test_vectors.md -/

/-- The next state, where there is one. -/
def nextState : Host.Outcome State Fault Refusal → Option State
  | .next t => some t
  | .fault _ => none
  | .refused _ => none

/-- The machine between cycles with given elements. -/
def between (a : Arch) : State := { State.reset with arch := a, next := a }

/-- One cycle with the given word, from given elements, watched through `f`. -/
def watch {α : Type} (a : Arch) (w : Nat) (f : State → α) : Option α :=
  (nextState (step ((between a).withFetchWord 61 w))).map f

/-- The base state of 95_test_vectors.md: reset, then enabled. -/
def base : Arch := { Arch.reset Params.standard with en := true }

/-- V1 up to offset 20 (K4): one payload byte is missing. -/
def lastByte : Arch :=
  { base with
    st := .pay, hcnt := 5, hLen := 8, hCsum := 0x9FB3, pcnt := 7, acc := 0xFFCC,
    fb := [(0, 0x54), (1, 0x65), (2, 0x73), (3, 0x74), (4, 0x65), (5, 0x31), (6, 0x32)] }

/-- After V1 (vector Q1): the frame is held. -/
def held : Arch :=
  { lastByte with
    st := .hold, pcnt := 8, acc := 0xFFFF, rxLen := 8, rxCsum := 0x9FB3, fb := lastByte.fb ++ [(7, 0x33)] }

/-- A header at its flags byte (K4 offset 13, or D2): `length`, `csum`, `id` and `acc` given. -/
def atFlags (n c : Half) (i : Byte) (acc : Half) : Arch :=
  { base with st := .hdr, hcnt := 5, hLen := n, hCsum := c, hId := i, acc := acc }

-- K4 offset 21
theorem test_sByte_accepts :
    watch lastByte 0x0998000000000000 (fun t => t.arch == held && t.out.accepted) = some true := by decide
-- D8: the domain check wins although acc = 0xFFFF
theorem test_sByte_rejects_domain :
    watch (atFlags 0 0xFCB9 2 0xFFBF) 0x0A00000000000000
      (fun t => (t.arch.acc, t.arch.rej, decide (t.arch.st = .hunt))) = some (0xFFFF, true, true) := by decide
-- H1: the eighth byte completes the pattern
theorem test_sByte_finds_sync :
    watch { base with win := 0x00DCC023C2DCC023, fill := 7 } 0x0E10000000000000
      (fun t => (decide (t.arch.st = .hdr), t.arch.acc, t.arch.fill)) = some (true, 0x0106, 0) := by decide
-- X8
theorem test_reset_cycle :
    watch held 0x1EE7000000000001 (fun t => (t.arch.en, t.out.inReady, t.arch == { Arch.reset Params.standard with fb := held.fb })) =
      some (false, false, true) := by decide
-- PROG4 cycle 12: an idle cycle inside a frame
theorem test_idle_cycle : watch lastByte 0 (fun t => (t.arch == lastByte, t.out.inReady, t.out.accepted)) = some (true, true, false) := by
  decide
-- PROG1 (RD CTRL reads 1), B3, X9, B5
theorem test_rdCtrl : watch base 0x0005000000000000 (fun t => t.out.busRdata) = some 1 := by decide
theorem test_rdCmd : watch held 0x0005000400000000 (fun t => t.out.busRdata) = some 0 := by decide
theorem test_rdStatus_old_value :
    watch lastByte 0x099D000800000000 (fun t => (t.out.busRdata, decide (t.arch.st = .hold))) = some (2, true) := by decide
theorem test_rdStatus_held : watch held 0x0005000800000000 (fun t => t.out.busRdata) = some 0x13 := by decide
theorem test_rdSync : watch base 0x0005000C00000000 (fun t => t.out.busRdata) = some 0xDCC023C2 := by decide
-- Q1
theorem test_rdRxInfo : watch held 0x0005001000000000 (fun t => t.out.busRdata) = some 0x00080000 := by decide
theorem test_rdRxCsum : watch held 0x0005001400000000 (fun t => t.out.busRdata) = some 0x9FB3 := by decide
theorem test_rdFb : watch held 0x0004000400000000 (fun t => t.out.busRdata) = some 0x65313233 := by decide
-- G1: byte 65535 reads 0
theorem test_rdFb_top :
    watch { held with fb := [(65532, 0xFC), (65533, 0xFD), (65534, 0xFE)] } 0x0004FFFC00000000 (fun t => t.out.busRdata) =
      some 0xFCFDFE00 := by decide
-- B11
theorem test_wrIrqEn :
    watch base 0x00070018FFFFFFFF (fun t => (t.arch.ieReady, t.arch.ieRej)) = some (true, true) := by decide
theorem test_rdIrqEn :
    watch { base with ieReady := true, ieRej := true } 0x0005001800000000 (fun t => t.out.busRdata) = some 3 := by decide
-- B14, X4, X5
theorem test_wrCtrl_bit0 : watch base 0x00070000FFFFFFFE (fun t => t.arch.en) = some false := by decide
theorem test_wrCtrl_enable_takes_no_byte :
    watch { base with en := false } 0x0EE7000000000001 (fun t => (t.out.accepted, t.arch.en, t.arch.fill)) = some (false, true, 0) := by
  decide
-- X13, X1
theorem test_wrCmd_abort_in_hold : watch held 0x0007000400000002 (fun t => t.arch == held) = some true := by decide
theorem test_wrCmd_abort_drops_byte :
    watch lastByte 0x099F000400000002 (fun t => (t.out.accepted, decide (t.arch.st = .hunt), t.arch.pcnt, t.arch.fb == lastByte.fb)) =
      some (true, true, 7, true) := by decide
-- X3, B19
theorem test_wrStatus_reject_wins :
    watch { atFlags 0 0 0 0x0106 with rej := true } 0x0E07000800000020 (fun t => t.arch.rej) = some true := by decide
theorem test_wrStatus_read_only_bits : watch { held with rej := true } 0x00070008FFFFFFDF (fun t => t.arch.rej) = some true := by decide
-- X6: the old SYNC is matched
theorem test_wrSync_same_cycle :
    watch { base with win := 0x00DCC023C2DCC023, fill := 7 } 0x0E17000C12345678
      (fun t => (decide (t.arch.st = .hdr), t.arch.acc, t.arch.sync)) = some (true, 0x0106, 0x12345678) := by decide
-- B17, B18, B12, B9, B13, B10, X14
theorem test_wrRxInfo_ignored : watch held 0x00070010FFFFFFFF (fun t => (t.arch == held, t.out.busErr)) = some (true, false) := by decide
theorem test_wrRxCsum_ignored : watch held 0x0007001400000000 (fun t => (t.arch == held, t.out.busErr)) = some (true, false) := by decide
theorem test_wrFb_refused : watch held 0x0006000000000000 (fun t => (t.arch == held, t.out.busErr)) = some (true, true) := by decide
theorem test_rdRsvd : watch held 0x0005FFFC00000000 (fun t => (t.out.busRdata, t.out.busErr)) = some (0, false) := by decide
theorem test_wrRsvd : watch held 0x0007002000000005 (fun t => (t.arch == held, t.out.busErr)) = some (true, false) := by decide
theorem test_rdMisaligned : watch held 0x0004FFFF00000000 (fun t => (t.out.busRdata, t.out.busErr)) = some (0, true) := by decide
theorem test_wrMisaligned : watch held 0x0007000500000001 (fun t => (t.arch == held, t.out.busErr)) = some (true, true) := by decide
-- I-4, I-5: irq is the state before the edge
theorem test_irq :
    watch { held with ieReady := true, ieRej := true } 0x0007001800000002 (fun t => t.out.irq) = some true ∧
    watch { held with ieRej := true } 0 (fun t => t.out.irq) = some false := by decide

/-! ## The checksum (K1, K2, K3, K5, V1) -/

theorem test_ocadd : ocadd 0xFFFE 1 = 0xFFFF ∧ ocadd 0x1234 0xCD = 0x1301 := by decide
theorem test_fold : fold 0x36049 = 0x604C ∧ fold 0x2FFFD = 0xFFFF := by decide
theorem test_compute_odd : compute [0x12, 0x34, 0x56] = 0x97CB := by decide
theorem test_sacc : sacc 0x12345678 = 0xD158 ∧ sacc 0xDCC023C2 = 0x0106 := by decide

/-- The bytes of V1. -/
def v1 : List Byte :=
  [0xDC, 0xC0, 0x23, 0xC2, 0xDC, 0xC0, 0x23, 0xC2, 0x00, 0x08, 0x9F, 0xB3, 0x00, 0x00, 0x54, 0x65, 0x73, 0x74, 0x65, 0x31, 0x32, 0x33]

theorem test_data_frame : dataFrame 0xDCC023C2 0 [0x54, 0x65, 0x73, 0x74, 0x65, 0x31, 0x32, 0x33] = v1 := by decide
theorem test_control_frame :
    controlFrame 0xDCC023C2 1 0x40 = [0xDC, 0xC0, 0x23, 0xC2, 0xDC, 0xC0, 0x23, 0xC2, 0, 0, 0xFD, 0xB9, 0x01, 0x40] := by decide

/-! ## FRAME (R110): the sync constant defaults to SYNC_RESET; V11 carries another; Q4's checksum field is given -/

/-- The bytes of V11. -/
def v11 : List Byte := [0x12, 0x34, 0x56, 0x78, 0x12, 0x34, 0x56, 0x78, 0, 0, 0x2D, 0x27, 0x01, 0x80]

theorem test_frame_sync_default :
    (Pseudo.frame none 0 0 [0x54, 0x65, 0x73, 0x74, 0x65, 0x31, 0x32, 0x33] none).expand Params.standard = v1.map .byte ∧
    (Pseudo.frame none 1 0x80 [] none).expand { syncReset := 0x12345678 } = v11.map .byte := by decide
theorem test_frame_sync_and_csum_given :
    (Pseudo.frame (some 0x12345678) 1 0x80 [] none).expand Params.standard = v11.map .byte ∧
    (Pseudo.frame none 0 0 [0x54, 0x65, 0x73, 0x74, 0x65, 0x31, 0x32, 0x33] (some 0x9FB4)).expand Params.standard =
      (v1.set 11 0xB4).map .byte := by decide

/-! ## Witnesses: the hypotheses of the obligations are met together, each clause at a boundary of its range -/

/-- Between cycles with given elements, the word `w` coming. -/
def coming (a : Arch) (w : Nat) : State := (between a).withFetchWord 61 w

/-- An operation performed on given elements, in the middle of a cycle. -/
def during (a : Arch) : State := (between a).beginCycle

theorem witness_DecodeEncodeCycle :
    cycleWf [.reset] = true ∧ cycleWf [.wrFb 0xFFFC 0xFFFFFFFF, .sByte 0xFF] = true ∧ cycleWf [.rdRsvd 0x1001C, .sIdle] = true ∧
    cycleWf [.rdMisaligned 0x1FFFF, .sIdle] = true := by decide

theorem witness_IgnoredInputsAreIgnored :
    (CycleIn.ofWord 0x07F8000000000000).inValid = false ∧ (CycleIn.ofWord 0x0002FFFFFFFFFFFF).busEn = false ∧
    (CycleIn.ofWord 0x00050000FFFFFFFF).busWe = false ∧ (CycleIn.ofWord 0x1EE7000000000001).rst = true := by decide

theorem witness_StepRunsTheDecodedOperations :
    (coming held 0x0EE7000400000001).inputs = [0x0EE7000400000001] ∧
    decodeCycle 0x0EE7000400000001 = [.wrCmd 1, .sByte 0xDC] ∧ decodeCycle 0x1000000000000000 = [.reset] := by decide

theorem base_inv : ArchInv base := by constructor <;> decide
theorem lastByte_inv : ArchInv lastByte := by constructor <;> decide
theorem held_inv : ArchInv held := by constructor <;> decide
theorem flags_inv : ArchInv (atFlags 0 0 0 0x0106) := by constructor <;> decide

theorem witness_StepIsR280 :
    ArchInv (coming base 0).arch ∧ ArchInv (coming lastByte 0x0998000000000000).arch ∧ ArchInv (coming held 0x0007000400000001).arch ∧
    ArchInv (coming (atFlags 0 0 0 0x0106) 0x0E07000800000020).arch := ⟨base_inv, lastByte_inv, held_inv, flags_inv⟩

theorem witness_StepKeepsArchInv :
    ∃ t, ArchInv (coming lastByte 0x0998000000000000).arch ∧ step (coming lastByte 0x0998000000000000) = .next t ∧ t.arch.st = .hold :=
  ⟨_, lastByte_inv, rfl, by decide⟩

theorem witness_FrxNeverStops : ArchInv State.reset.arch := by constructor <;> decide

theorem witness_StepKeepsMemoryCanonical :
    ∃ t, (coming lastByte 0x0998000000000000).arch.fb.wf = true ∧ step (coming lastByte 0x0998000000000000) = .next t ∧
      t.arch.fb.length = 8 := ⟨_, by decide, rfl, by decide⟩

theorem witness_StepEndsQuiet : ∃ t, step (coming lastByte 0x099F000400000002) = .next t ∧ t.arch.st = .hunt := ⟨_, rfl, by decide⟩

-- the top of the window, both sides of the nonexistent byte (R74)
theorem witness_FrameBufferReadCompletes :
    wfFbAddr 0 = true ∧ wfFbAddr 0xFFFC = true ∧ (0xFFFC#17).toNat + 2 ≤ 65534 ∧ ¬ (0xFFFC#17).toNat + 3 ≤ 65534 := by decide

-- the first and the last reserved word, the highest address, the last FB word, a misaligned address of each region
theorem witness_RegisterReadsComplete : wfRsvdAddr 0x1001C = true ∧ wfRsvdAddr 0x1FFFC = true := by decide
theorem witness_IgnoredWritesComplete : wfRsvdAddr 0x1001C = true ∧ wfRsvdAddr 0x1FFFC = true := by decide
theorem witness_RefusedAccessesComplete :
    wfFbAddr 0 = true ∧ wfFbAddr 0xFFFC = true ∧ (0x1FFFF#17).toNat % 4 ≠ 0 ∧ (0x00001#17).toNat % 4 ≠ 0 := by decide

theorem witness_ByteNotTakenOrDropped :
    (during State.reset.arch).arch.en = false ∧ (during held).arch.st = .hold ∧
    ((during lastByte).driveAbort true).arch.en = true ∧ ((during lastByte).driveAbort true).arch.st ≠ .hold ∧
    ((during lastByte).driveAbort true).abort = true := by decide

theorem witness_HuntByteCompletes :
    (during { base with win := 0x00DCC023C2DCC023, fill := 7 }).arch.en = true ∧
    (during { base with win := 0x00DCC023C2DCC023, fill := 7 }).abort = false ∧
    (during { base with win := 0x00DCC023C2DCC023, fill := 7 }).arch.st = .hunt ∧
    (0x00DCC023C2DCC023 * 256 + 0xC2) % 2 ^ 64 = 0xDCC023C2 * 2 ^ 32 + 0xDCC023C2 := by decide

theorem witness_HeaderFieldByteCompletes :
    ∀ k < 5, (during { base with st := .hdr, hcnt := BitVec.ofNat 3 k }).arch.en = true ∧
      (during { base with st := .hdr, hcnt := BitVec.ofNat 3 k }).abort = false ∧
      (during { base with st := .hdr, hcnt := BitVec.ofNat 3 k }).arch.st = .hdr ∧
      (during { base with st := .hdr, hcnt := BitVec.ofNat 3 k }).arch.hcnt.toNat = k := by decide

-- a payload follows (K4 offset 13); an END frame is accepted (V2); a header fails (D2)
theorem witness_FlagsByteCompletes :
    ∀ a ∈ [atFlags 8 0x9FB3 0 0xA0C1, atFlags 0 0xFDB9 1 0xFFBF, atFlags 0 0 0 0x0106],
      (during a).arch.en = true ∧ (during a).abort = false ∧ (during a).arch.st = .hdr ∧ (during a).arch.hcnt = 5#3 := by decide

theorem witness_FlagsByteCompletes_accept : ocadd 0xFFBF (BitVec.ofNat 16 (0x40#8).toNat) = 0xFFFF#16 := by decide

-- the last byte of V1, one before it, and the last byte a frame can have
theorem witness_PayloadByteCompletes :
    ∀ a ∈ [lastByte, { lastByte with pcnt := 6 }, { lastByte with hLen := 65535, pcnt := 65534 }],
      (during a).arch.en = true ∧ (during a).abort = false ∧ (during a).arch.st = .pay ∧ (during a).arch.pcnt.toNat < 65535 := by
  decide

theorem witness_ByteStopsOnlyWhereNoRunReaches :
    exec (.sByte 0) (during { base with st := .hdr, hcnt := 6 }) = .fault .headerCountOutOfRange ∧
    exec (.sByte 0) (during { base with st := .hdr, hcnt := 7 }) = .fault .headerCountOutOfRange ∧
    exec (.sByte 0) (during { lastByte with pcnt := 65535 }) = .fault .frameBufferOutOfRange := ⟨rfl, rfl, rfl⟩

-- accepted, rejected, and neither
theorem witness_ByteFrame :
    (∃ t, exec (.sByte 0x33) (during lastByte) = .next t ∧ rejectsNow 0x33 lastByte = false) ∧
    (∃ t, exec (.sByte 0x32) (during lastByte) = .next t ∧ acceptsNow 0x32 lastByte = false ∧ rejectsNow 0x32 lastByte = true) ∧
    (∃ t, exec (.sByte 0) (during base) = .next t ∧ acceptsNow 0 base = false ∧ rejectsNow 0 base = false) :=
  ⟨⟨_, rfl, by decide⟩, ⟨_, rfl, by decide, by decide⟩, ⟨_, rfl, by decide, by decide⟩⟩

theorem witness_BusOperationFrame :
    (∃ t, (Instr.wrCmd 1).format = .b ∧ exec (.wrCmd 1) (during held) = .next t ∧ t.next.st = .hunt) ∧
    (∃ t, (Instr.rdFb 0).format = .b ∧ exec (.rdFb 0) (during held) = .next t) ∧
    (∃ t, (Instr.wrCtrl 0).format = .b ∧ exec (.wrCtrl 0) (during held) = .next t ∧ t.next.en = false) :=
  ⟨⟨_, rfl, rfl, rfl⟩, ⟨_, rfl, rfl⟩, ⟨_, rfl, rfl, rfl⟩⟩

theorem witness_InReadyAndAccepted :
    (∃ t, step (coming lastByte 0x0998000000000000) = .next t ∧ t.out.inReady = true) ∧
    (∃ t, step (coming held 0x0EE0000000000000) = .next t ∧ t.out.inReady = false) ∧
    (∃ t, step (coming base 0x1EE7000000000001) = .next t ∧ t.out.inReady = false) :=
  ⟨⟨_, rfl, by decide⟩, ⟨_, rfl, by decide⟩, ⟨_, rfl, by decide⟩⟩

theorem witness_UntakenByteChangesNothing :
    ∃ t t', (coming held 0x06E0000000000000).arch = (coming held 0x0EE0000000000000).arch ∧
      (coming held 0x06E0000000000000).params = (coming held 0x0EE0000000000000).params ∧
      CycleIn.ofWord (coming held 0x06E0000000000000).nextWord =
        { CycleIn.ofWord (coming held 0x0EE0000000000000).nextWord with inValid := false } ∧
      step (coming held 0x0EE0000000000000) = .next t ∧ step (coming held 0x06E0000000000000) = .next t' ∧ t.out.inReady = false :=
  ⟨_, _, rfl, rfl, by decide, rfl, rfl, by decide⟩

theorem witness_IrqIsLevel :
    (∃ t, step (coming { held with ieReady := true } 0) = .next t ∧ t.out.irq = true) ∧
    (∃ t u, step ((between { base with rej := true, ieRej := true }).withInputs [0x1000000000000000, 0]) = .next t ∧ t.out.irq = true ∧
      (CycleIn.ofWord ((between { base with rej := true, ieRej := true }).withInputs [0x1000000000000000, 0]).nextWord).rst = true ∧
      step t = .next u ∧ u.out.irq = false) :=
  ⟨⟨_, rfl, by decide⟩, ⟨_, _, rfl, by decide, by decide, rfl, by decide⟩⟩

-- the top FB word, the first register, a misaligned read, the same in a reset cycle; and the pair without the access
theorem witness_BusErrorRule :
    (∃ t, step (coming held 0x0006FFFC00000000) = .next t ∧ t.out.busErr = true) ∧
    (∃ t, step (coming held 0x0007000000000001) = .next t ∧ t.out.busErr = false) ∧
    (∃ t, step (coming held 0x0005FFFF00000000) = .next t ∧ t.out.busErr = true) ∧
    (∃ t, step (coming held 0x1005FFFF00000000) = .next t ∧ t.out.busErr = false) ∧
    (CycleIn.ofWord (coming held 0x0002FFFC00000000).nextWord =
      { CycleIn.ofWord (coming held 0x0006FFFC00000000).nextWord with busEn := false }) ∧
    (∃ t', step (coming held 0x0002FFFC00000000) = .next t') :=
  ⟨⟨_, rfl, by decide⟩, ⟨_, rfl, by decide⟩, ⟨_, rfl, by decide⟩, ⟨_, rfl, by decide⟩, by decide, ⟨_, rfl⟩⟩

theorem witness_ReadsHaveNoSideEffect :
    ∃ t t', (coming lastByte 0x0999000800000000).arch = (coming lastByte 0x099D000800000000).arch ∧
      (coming lastByte 0x0999000800000000).params = (coming lastByte 0x099D000800000000).params ∧
      (CycleIn.ofWord (coming lastByte 0x099D000800000000).nextWord).busWe = false ∧
      CycleIn.ofWord (coming lastByte 0x0999000800000000).nextWord =
        { CycleIn.ofWord (coming lastByte 0x099D000800000000).nextWord with busEn := false } ∧
      step (coming lastByte 0x099D000800000000) = .next t ∧ step (coming lastByte 0x0999000800000000) = .next t' :=
  ⟨_, _, rfl, rfl, by decide, by decide, rfl, rfl⟩

theorem witness_IdleCycleKeepsElements : decodeCycle (coming lastByte 0).nextWord = [.bIdle, .sIdle] := by decide

theorem witness_ResetCycle : (CycleIn.ofWord (coming held 0x1EE7000000000001).nextWord).rst = true := by decide

theorem witness_CommandsReturnToHunt :
    abortsNow (CycleIn.ofWord (coming lastByte 0x099F000400000002).nextWord) lastByte = true ∧
    releasesNow (CycleIn.ofWord (coming held 0x0EE7000400000003).nextWord) held = true := by decide

-- X3: the reject beats the clear; the clear alone; reset
theorem witness_RejectFlagRule :
    (∃ t, step (coming { atFlags 0 0 0 0x0106 with rej := true } 0x0E07000800000020) = .next t ∧ t.arch.rej = true) ∧
    (∃ t, step (coming { base with rej := true } 0x0007000800000020) = .next t ∧ t.arch.rej = false) ∧
    (∃ t, step (coming { base with rej := true } 0x1000000000000000) = .next t ∧ t.arch.rej = false) :=
  ⟨⟨_, rfl, by decide⟩, ⟨_, rfl, by decide⟩, ⟨_, rfl, by decide⟩⟩

theorem witness_ReadyFlagRule :
    (∃ t, step (coming lastByte 0x0998000000000000) = .next t ∧ t.arch.st = .hold) ∧
    (∃ t, step (coming held 0x0007000400000002) = .next t ∧ t.arch.st = .hold) ∧
    (∃ t, step (coming held 0x0007000400000001) = .next t ∧ t.arch.st ≠ .hold) :=
  ⟨⟨_, rfl, by decide⟩, ⟨_, rfl, by decide⟩, ⟨_, rfl, by decide⟩⟩

theorem witness_OnlyPayloadBytesWriteFb :
    (∃ t, step (coming lastByte 0x0998000000000000) = .next t ∧ t.arch.fb.read? 7 = some 0x33) ∧
    (∃ t, step (coming lastByte 0x099F000400000002) = .next t ∧ t.arch.fb.read? 7 = none) ∧
    (∃ t, step (coming { lastByte with hLen := 65535, pcnt := 65534 } 0x0998000000000000) = .next t ∧
      t.arch.fb.read? 65534 = some 0x33) := ⟨⟨_, rfl, by decide⟩, ⟨_, rfl, by decide⟩, ⟨_, rfl, by decide⟩⟩

theorem witness_HeaderRegistersRule :
    (∃ t, step (coming lastByte 0x0998000000000000) = .next t ∧ t.arch.rxLen = 8) ∧
    (∃ t, step (coming (atFlags 0 0xFDB9 1 0xFFBF) 0x0A00000000000000) = .next t ∧ t.arch.rxFlags = 0x40) ∧
    (∃ t, step (coming held 0x1000000000000000) = .next t ∧ t.arch.rxLen = 0) :=
  ⟨⟨_, rfl, by decide⟩, ⟨_, rfl, by decide⟩, ⟨_, rfl, by decide⟩⟩

theorem witness_ControlRegistersRule :
    (∃ t, step (coming base 0x00070018FFFFFFFF) = .next t ∧ t.arch.ieRej = true) ∧
    (∃ t, step (coming base 0x0007000C12345678) = .next t ∧ t.arch.sync = 0x12345678) ∧
    (∃ t, step (coming base 0x1000000000000000) = .next t ∧ t.arch.en = false) :=
  ⟨⟨_, rfl, by decide⟩, ⟨_, rfl, by decide⟩, ⟨_, rfl, by decide⟩⟩

theorem witness_PauseKeepsParser :
    ∃ t, step (coming { lastByte with en := false } 0x099C000000000000) = .next t ∧
      (coming { lastByte with en := false } 0x099C000000000000).arch.en = false ∧
      (CycleIn.ofWord (coming { lastByte with en := false } 0x099C000000000000).nextWord).rst = false ∧
      abortsNow (CycleIn.ofWord (coming { lastByte with en := false } 0x099C000000000000).nextWord) { lastByte with en := false } = false ∧
      releasesNow (CycleIn.ofWord (coming { lastByte with en := false } 0x099C000000000000).nextWord) { lastByte with en := false } =
        false := ⟨_, rfl, by decide, by decide, by decide, by decide⟩

theorem witness_HeldFrameStays :
    (between held).arch.st = .hold ∧
    ∀ w ∈ [(0x0EE0000000000000 : CycleWord), 0x0007000400000002, 0x0004000000000000], (CycleIn.ofWord w).rst = false ∧
      ¬(writesReg (CycleIn.ofWord w) 0x10004#17 = true ∧ (CycleIn.ofWord w).busWdata.getLsbD 0 = true) := by
  refine ⟨by decide, fun w hw => ?_⟩
  simp only [List.mem_cons, List.not_mem_nil, or_false] at hw
  rcases hw with rfl | rfl | rfl <;> decide

theorem witness_IdleCyclesDoNotMatter :
    (∃ t, runWords [0, 0x0998000000000000, 0] (between lastByte) = .next t ∧ t.arch.st = .hold) ∧
    ([(0 : CycleWord), 0x0998000000000000, 0].filter fun w => decodeCycle w != [.bIdle, .sIdle]) = [0x0998000000000000] :=
  ⟨⟨_, rfl, by decide⟩, by decide⟩

theorem witness_HiddenStateIsNotReadable :
    ∃ t t', (coming { held with win := 1, pcnt := 9, acc := 7 } 0x0005000800000000).params = (coming held 0x0005000800000000).params ∧
      (coming { held with win := 1, pcnt := 9, acc := 7 } 0x0005000800000000).nextWord = (coming held 0x0005000800000000).nextWord ∧
      step (coming held 0x0005000800000000) = .next t ∧
      step (coming { held with win := 1, pcnt := 9, acc := 7 } 0x0005000800000000) = .next t' ∧ t.out.busRdata = 0x13 :=
  ⟨_, _, rfl, rfl, rfl, rfl, by decide⟩

-- both forms of the second command
theorem witness_SoftRestart : (between held).arch.st = .hold ∧ (between lastByte).arch.st ≠ .hold := by decide

theorem witness_FoldIsResidue : 1 ≤ fold 0x1FFFE ∧ fold 0x1FFFE = 0xFFFF ∧ 0xFFFF % 0xFFFF = 0x1FFFE % 0xFFFF ∧ 0x1FFFE ≠ 0 := by decide

theorem witness_WordsumFitsIn32Bits : v1.length ≤ 14 + 65535 ∧ ∃ bs : List Byte, bs.length = 14 + 65535 :=
  ⟨by decide, List.replicate (14 + 65535) 0xFF, by rw [List.length_replicate]⟩

theorem witness_SingleBitErrorsAreDetected : 7 < 8 ∧ verify (v1.take 21 ++ 0x33 :: []) = true ∧ verify ([] ++ 0xDC :: v1.drop 1) = true := by
  decide

-- Q6 exchanges two words of V1; Q7 replaces a word 0x0000 by 0xFFFF
theorem witness_WordExchangeIsNotDetected :
    (v1.take 14).length % 2 = 0 ∧ ([] : List Byte).length % 2 = 0 ∧
    verify ([0xDC, 0xC0, 0x23, 0xC2, 0xDC, 0xC0, 0x23, 0xC2, 0, 4, 0xBD, 0xB3, 0, 0] ++ [0, 0] ++ [0x41, 0x42]) = true ∧
    verify ([0xDC, 0xC0, 0x23, 0xC2, 0xDC, 0xC0, 0x23, 0xC2, 0, 4, 0xBD, 0xB3, 0, 0] ++ [0xFF, 0xFF] ++ [0x41, 0x42]) = true ∧
    wordsum ([0xDC, 0xC0, 0x23, 0xC2, 0xDC, 0xC0, 0x23, 0xC2, 0, 4, 0xBD, 0xB3, 0, 0] ++ [0, 0] ++ [0x41, 0x42]) ≠ 0 := by decide

/-- The checksum invariant holds of the header at its flags byte. -/
theorem flags_checksum : ChecksumInv 0xDCC023C2 (atFlags 0 0xFDB9 1 0xFFBF) := by
  constructor <;> decide

theorem witness_StepKeepsChecksumInv :
    ∃ t, ArchInv (coming (atFlags 0 0xFDB9 1 0xFFBF) 0x0A00000000000000).arch ∧
      ChecksumInv 0xDCC023C2 (coming (atFlags 0 0xFDB9 1 0xFFBF) 0x0A00000000000000).arch ∧
      step (coming (atFlags 0 0xFDB9 1 0xFFBF) 0x0A00000000000000) = .next t ∧
      (CycleIn.ofWord (coming (atFlags 0 0xFDB9 1 0xFFBF) 0x0A00000000000000).nextWord).rst = false ∧
      writesReg (CycleIn.ofWord (coming (atFlags 0 0xFDB9 1 0xFFBF) 0x0A00000000000000).nextWord) 0x1000C#17 = false ∧ t.arch.st = .hold :=
  ⟨_, by constructor <;> decide, flags_checksum, rfl, by decide, by decide, by decide⟩

-- H3 (junk, then the pattern) and H5 (seven bytes never match)
theorem witness_SyncSearchFindsFirstPattern :
    ((between base).arch.st = .hunt ∧ (between base).arch.win = 0#64 ∧ (between base).arch.fill = 0#4 ∧ (between base).arch.en = true) ∧
    (∀ k, k < (0x01 :: v1.take 8).length →
      ¬ (wordBytes (between base).arch.sync ++ wordBytes (between base).arch.sync) <:+ (0x01 :: v1.take 8).take k) ∧
    ((wordBytes (between base).arch.sync ++ wordBytes (between base).arch.sync) <:+ 0x01 :: v1.take 8) ∧
    ¬ ((wordBytes (between base).arch.sync ++ wordBytes (between base).arch.sync) <:+ v1.take 7) := by decide

-- V1 verifies; Q4's frame (checksum field 9F B4) does not; V2 is a control frame
theorem witness_FrameIsJudgedByVerify :
    (between base).arch.st = .hunt ∧ (between base).arch.win = 0#64 ∧ (between base).arch.fill = 0#4 ∧ (between base).arch.en = true ∧
    hdrOk 8 0 0 = true ∧ (v1.drop 14).length = (8#16).toNat ∧
    verify (header (between base).arch.sync 8 0x9FB3 0 0 ++ v1.drop 14) = true ∧
    verify (header (between base).arch.sync 8 0x9FB4 0 0 ++ v1.drop 14) = false ∧
    hdrOk 0 1 0x40 = true ∧ verify (header (between base).arch.sync 0 0xFDB9 1 0x40 ++ []) = true := by decide

theorem witness_BadHeaderIsRejected :
    (between base).arch.st = .hunt ∧ (between base).arch.win = 0#64 ∧ (between base).arch.fill = 0#4 ∧ (between base).arch.en = true ∧
    hdrOk 0 2 0x40 = false ∧ hdrOk 1 0 0x40 = false ∧ hdrOk 0 0 0 = false ∧ hdrOk 0 0 0xC0 = false := by decide

end Sys2Proof.Tests
end

