-- ==== Sys2Proof/Proofs/Cycle.lean ====
section
/-! SUPPORT. One whole cycle in one piece (70_reset_and_hazards.md rule R280): the elements it leaves, its outputs, and the rest of
the state after it. -/

namespace Sys2Proof.Machine

/-- The elements a bus operation leaves, with no byte taken in its cycle. -/
def busElements (a : Arch) (i : CycleIn) : Arch := effectAtEdge (decodeBusEffect a i).2.2 i.busWdata a a

/-- The elements after a cycle: the reset values, or the stream effect of a taken byte over the bus effect. -/
def cycleElements (p : Params) (a : Arch) (i : CycleIn) : Except Fault Arch :=
  if i.rst then .ok (resetElements p a)
  else if byteTaken i a && !abortsNow i a then streamEffect i.inData a (busElements a i)
  else .ok (busElements a i)

/-- The outputs of a cycle (R160, R161, R200, R250, R270). -/
def cycleOutputs (a : Arch) (i : CycleIn) : CycleOut :=
  if i.rst then { inReady := false, accepted := false, busRdata := 0#32, busErr := false, irq := irqLine a }
  else
    { inReady := inReady a
      accepted := i.inValid && inReady a
      busRdata := (decodeBusEffect a i).1
      busErr := (decodeBusEffect a i).2.1
      irq := irqLine a }

/-- The state after the edge of a cycle begun in `s` that leaves the elements `n` and drove the outputs `o`. -/
def State.afterCycle (s : State) (n : Arch) (o : CycleOut) : State where
  params := s.params
  arch := n
  next := n
  abort := false
  out := o
  inputs := s.inputs.tail
  cycle := s.cycle + 1

/-- The address map of R70 has one CMD register, at 0x10004. -/
theorem decodeBusEffect_eq_wrCmd (a : Arch) (i : CycleIn) :
    (decodeBusEffect a i).2.2 = .wrCmd ↔ i.busEn = true ∧ i.busWe = true ∧ i.busAddr = 0x10004#17 := by
  rw [← BitVec.toNat_inj]
  simp only [decodeBusEffect]
  split_ifs <;> simp_all <;> omega

/-- The wire `abort` after the bus operation of a cycle without reset is CMD.ABORT taking effect (R212). -/
theorem afterBus_beginCycle_abort (s : State) (i : CycleIn) (hr : i.rst = false) :
    (afterBus s.beginCycle i).abort = abortsNow i s.arch := by
  change (if (decodeBusEffect s.arch i).2.2 = .wrCmd then abortEffective i.busWdata s.arch else false) = abortsNow i s.arch
  simp only [decodeBusEffect_eq_wrCmd, abortsNow, abortEffective, wdAbort, hr]
  split_ifs <;> simp_all

/-- A byte that is offered and may be taken is a taken byte (R161). -/
theorem inValid_and_inReady (i : CycleIn) (a : Arch) (hr : i.rst = false) : (i.inValid && inReady a) = byteTaken i a := by
  simp [byteTaken, inReady, hr, Bool.and_assoc]

/-- A reset cycle leaves the reset values, whatever else is requested (R270). -/
theorem step_of_rst {s : State} (hr : (CycleIn.ofWord s.nextWord).rst = true) :
    step s = .next (s.afterCycle (resetElements s.params s.arch) (cycleOutputs s.arch (CycleIn.ofWord s.nextWord))) := by
  simp only [step, decodeCycle, decodeInputs, hr, if_true, runCycle_reset, cycleOutputs]
  rfl

/-- Any other cycle is its bus operation's state, then the stream operation, then the edge. -/
theorem step_of_not_rst {s : State} (hr : (CycleIn.ofWord s.nextWord).rst = false) :
    step s = andThen (exec (decodeStream (CycleIn.ofWord s.nextWord)) (afterBus s.sampleInputs.beginCycle (CycleIn.ofWord s.nextWord)))
      fun u => .next u.clockEdge := by
  simp only [step, decodeCycle, decodeInputs, hr, Bool.false_eq_true, if_false, runCycle_pair, exec_decodeBus, andThen_next]

/-- The stream operation of a cycle answers a next state exactly when the effect of its byte, if it has one, is defined. -/
theorem exec_decodeStream_eq_next {i : CycleIn} {s t : State} :
    exec (decodeStream i) s = .next t ↔
      ∃ n, (if i.inValid && inReady s.arch && !s.abort then streamEffect i.inData s.arch s.next else .ok s.next) = .ok n ∧
        t = (s.streamReply i.inValid).atEdge fun _ => n := by
  cases hv : i.inValid
  · simp [decodeStream, hv, exec, execSIdle, eq_comm (b := t), State.atEdge, State.streamReply]
  · simp only [decodeStream, hv, if_true, exec, execSByte, Bool.true_and]
    split
    · cases streamEffect i.inData s.arch s.next <;> simp [eq_comm (b := t)]
    · simp [eq_comm (b := t), State.atEdge, State.streamReply]

/-- Everything one cycle does: it answers a next state exactly when its stream effect is defined, and that state is
`State.afterCycle`. -/
theorem step_eq_next {s t : State} :
    step s = .next t ↔
      ∃ n, cycleElements s.params s.arch (CycleIn.ofWord s.nextWord) = .ok n ∧
        t = s.afterCycle n (cycleOutputs s.arch (CycleIn.ofWord s.nextWord)) := by
  cases hr : (CycleIn.ofWord s.nextWord).rst
  · have hready : inReady (afterBus s.sampleInputs.beginCycle (CycleIn.ofWord s.nextWord)).arch = inReady s.arch := rfl
    have habort := afterBus_beginCycle_abort s.sampleInputs _ hr
    have hend (n : Arch) : State.clockEdge (((afterBus s.sampleInputs.beginCycle (CycleIn.ofWord s.nextWord)).streamReply
        (CycleIn.ofWord s.nextWord).inValid).atEdge fun _ => n) =
        s.afterCycle n (cycleOutputs s.arch (CycleIn.ofWord s.nextWord)) := by
      simp only [cycleOutputs, hr]
      rfl
    simp only [step_of_not_rst hr, andThen_eq_next, exec_decodeStream_eq_next, cycleElements, hr, hready, habort,
      State.sampleInputs_arch, inValid_and_inReady _ s.arch hr]
    constructor
    · rintro ⟨_, ⟨n, hn, rfl⟩, ht⟩
      cases ht
      exact ⟨n, hn, hend n⟩
    · rintro ⟨n, hn, rfl⟩
      exact ⟨_, ⟨n, hn, rfl⟩, congrArg _ (hend n)⟩
  · simp [step_of_rst hr, cycleElements, hr, eq_comm (b := t)]

end Sys2Proof.Machine
end

