-- ==== Sys2Proof/Proofs/Invariants.lean ====
section
/-! SUPPORT. The invariants of 10_state.md rule R52: the parser's rules keep them, and where they hold no byte stops the machine
(log entry 7). -/

namespace Sys2Proof.Machine

/-! ## The elements a host writes beside the parser -/

/-- `nx` is `pre` but for the elements that register writes other than CMD change (R203, R210, R211, R215). -/
def SameParser (pre nx : Arch) : Prop :=
  nx = { pre with en := nx.en, sync := nx.sync, rej := nx.rej, ieReady := nx.ieReady, ieRej := nx.ieRej }

/-- R52 says nothing about these elements. -/
theorem ArchInv.of_sameParser {pre nx : Arch} (h : ArchInv pre) (hn : SameParser pre nx) : ArchInv nx := by
  rw [SameParser] at hn
  rw [hn]
  exact ⟨h.emptyWindow, h.headerCount, h.payload, h.held, h.window⟩

/-- With no effective RELEASE or ABORT a bus operation leaves the parser's elements (R216). -/
theorem busElements_sameParser {a : Arch} {i : CycleIn} (hr : i.rst = false) (hrel : releasesNow i a = false)
    (habort : abortsNow i a = false) : SameParser a (busElements a i) := by
  unfold busElements
  cases he : (decodeBusEffect a i).2.2 with
  | wrCmd =>
    obtain ⟨hen, hwe, haddr⟩ := (decodeBusEffect_eq_wrCmd a i).1 he
    have hnone : (releaseEffective i.busWdata a || abortEffective i.busWdata a) = false := by
      simp_all [releasesNow, abortsNow, releaseEffective, abortEffective, wdRelease, wdAbort]
    simp only [effectAtEdge, hnone]
    rfl
  | _ => rfl

/-! ## One lemma per shape of the elements -/

/-- Searching with an empty window. -/
theorem ArchInv.of_hunt_empty {a : Arch} (hst : a.st = .hunt) (hfill : a.fill = 0#4) (hwin : a.win = 0#64) : ArchInv a := by
  constructor <;> simp [hst, hfill, hwin]

theorem ArchInv.of_hdr {a : Arch} (hst : a.st = .hdr) (hfill : a.fill = 0#4) (hwin : a.win = 0#64) (hc : a.hcnt.toNat ≤ 5) :
    ArchInv a := by
  constructor <;> simp [hst, hfill, hwin, hc]

theorem ArchInv.of_pay {a : Arch} (hst : a.st = .pay) (hfill : a.fill = 0#4) (hwin : a.win = 0#64)
    (hlen : a.pcnt.toNat < a.hLen.toNat) (hid : a.hId = 0#8 ∨ a.hId = 1#8) (hflags : a.hFlags = 0x00#8) : ArchInv a := by
  have hpos : 1 ≤ a.hLen.toNat := Nat.one_le_of_lt hlen
  constructor <;> simp [hst, hfill, hwin, hpos, hlen, hid, hflags]

/-! ## Each rule of the parser keeps the invariants -/

theorem resetElements_archInv (p : Params) (a : Arch) : ArchInv (resetElements p a) := .of_hunt_empty rfl rfl rfl

theorem backToHunt_archInv (a : Arch) : ArchInv (backToHunt a) := .of_hunt_empty rfl rfl rfl

/-- A bus operation keeps the invariants. -/
theorem busElements_archInv {a : Arch} (h : ArchInv a) (i : CycleIn) : ArchInv (busElements a i) := by
  unfold busElements
  cases (decodeBusEffect a i).2.2 with
  | wrCmd =>
    simp only [effectAtEdge]
    split
    · exact backToHunt_archInv a
    · exact h
  | _ => exact h.of_sameParser rfl

theorem reject_archInv (a : Arch) : ArchInv (reject a) := .of_hunt_empty rfl rfl rfl

/-- The header domain check (R172) as R52 says it of a held frame. -/
theorem hdrOk_iff (n : Half) (i f : Byte) :
    hdrOk n i f = true ↔
      (i = 0#8 ∨ i = 1#8) ∧ (f = 0x00#8 ∨ f = 0x40#8 ∨ f = 0x80#8) ∧ (n = 0#16 ↔ f ≠ 0x00#8) := by
  simp only [hdrOk, flagsData, flagsEnd, flagsAck, Bool.and_eq_true, Bool.or_eq_true, beq_iff_eq, Bool.not_eq_true']
  grind

/-- Accepting a frame whose header passed R172 gives a good held frame (R177). -/
theorem accept_archInv {f : Byte} {pre : Arch} (nx : Arch) (hk : hdrOk pre.hLen pre.hId f = true) : ArchInv (accept f pre nx) where
  emptyWindow _ := ⟨rfl, rfl⟩
  headerCount h := nomatch h
  payload h := nomatch h
  held _ := (hdrOk_iff _ _ _).1 hk
  window := by simp [accept]

theorem judgeChecksum_archInv {acc1 : Half} {f : Byte} {pre : Arch} (nx : Arch) (hk : hdrOk pre.hLen pre.hId f = true) :
    ArchInv (judgeChecksum acc1 f pre nx) := by
  obtain ⟨-, h⟩ | ⟨-, h⟩ := judgeChecksum_cases acc1 f pre nx <;> rw [h]
  · exact accept_archInv nx hk
  · exact reject_archInv nx

theorem shiftWindow_toNat (win : BitVec 64) (b : Byte) : (shiftWindow win b).toNat = (win.toNat * 256 + b.toNat) % 2 ^ 64 := by
  have hb := b.isLt
  have hor := Nat.two_pow_add_eq_or_of_lt (i := 8) hb (win.toNat % 2 ^ 56)
  have hmod : win.toNat <<< 8 % 2 ^ 64 = 2 ^ 8 * (win.toNat % 2 ^ 56) := by rw [Nat.shiftLeft_eq]; omega
  rw [shiftWindow, BitVec.toNat_or, BitVec.toNat_shiftLeft, BitVec.toNat_setWidth, Nat.mod_eq_of_lt (by omega : b.toNat < 2 ^ 64),
    hmod, ← hor]
  omega

/-- The window holds no more bytes than `fill` counts, after a shift too (R165). -/
theorem shiftWindow_lt {win : BitVec 64} (b : Byte) {n : Nat} (hn : n ≤ 8) (hw : win.toNat < 2 ^ (8 * n)) :
    (shiftWindow win b).toNat < 2 ^ (8 * min (n + 1) 8) := by
  rw [shiftWindow_toNat]
  have hb := b.isLt
  obtain rfl | hlt := hn.eq_or_lt
  · exact Nat.mod_lt _ (by decide)
  · rw [Nat.min_eq_left hlt, Nat.mul_succ 8, Nat.pow_add]
    exact (Nat.mod_le _ _).trans_lt (by omega)

section Bytes

variable {b : Byte} {pre nx a : Arch}

/-- A byte searched (R165, R166). -/
theorem huntByte_archInv (b : Byte) (h : ArchInv pre) (hn : SameParser pre nx) (hst : pre.st = .hunt) :
    ArchInv (huntByte b pre nx) := by
  obtain ⟨-, -, he⟩ | ⟨-, he⟩ := huntByte_cases b pre nx <;> rw [he]
  · exact .of_hdr rfl rfl rfl (Nat.zero_le _)
  · obtain ⟨hfill, hwin⟩ := h.window
    have hnx : nx.st = .hunt := (congrArg Arch.st hn).trans hst
    have hf : (BitVec.ofNat 4 (min (pre.fill.toNat + 1) 8)).toNat = min (pre.fill.toNat + 1) 8 :=
      Nat.mod_eq_of_lt (by omega)
    constructor <;> simp only [hnx, ne_eq, not_true_eq_false, reduceCtorEq, false_implies]
    rw [hf]
    exact ⟨by omega, shiftWindow_lt b hfill hwin⟩

/-- The header's last byte (R171). -/
theorem flagsByte_archInv (b : Byte) (h : ArchInv pre) (hn : SameParser pre nx) (hst : pre.st = .hdr) :
    ArchInv (flagsByte b pre nx) := by
  obtain ⟨-, he⟩ | ⟨hk, -, he⟩ | ⟨hk, h0, he⟩ := flagsByte_cases b pre nx <;> rw [he]
  · exact reject_archInv _
  · exact judgeChecksum_archInv _ hk
  · obtain ⟨hid, -, hz⟩ := (hdrOk_iff _ _ _).1 hk
    obtain ⟨hfill, hwin⟩ := h.emptyWindow (by simp [hst])
    have hpos : 0 < pre.hLen.toNat := Nat.pos_of_ne_zero fun hl => h0 (BitVec.eq_of_toNat_eq hl)
    rw [hn]
    exact .of_pay rfl hfill hwin hpos hid (not_not.1 (mt hz.2 h0))

/-- A header byte (R168 to R171). -/
theorem hdrByte_archInv (h : ArchInv pre) (hn : SameParser pre nx) (hst : pre.st = .hdr) (he : hdrByte b pre nx = .ok a) :
    ArchInv a := by
  obtain ⟨hfill, hwin⟩ := h.emptyWindow (by simp [hst])
  have collects (acc hLen hCsum : Half) (hId : Byte) {hcnt : BitVec 3} (hc : hcnt.toNat ≤ 5) :
      ArchInv { nx with acc := acc, hLen := hLen, hCsum := hCsum, hId := hId, hcnt := hcnt } := by
    rw [hn]
    exact .of_hdr hst hfill hwin hc
  obtain ⟨-, rfl⟩ | ⟨-, rfl⟩ | ⟨-, rfl⟩ | ⟨-, rfl⟩ | ⟨-, rfl⟩ | ⟨-, rfl⟩ := hdrByte_cases he
  iterate 5 exact collects _ _ _ _ (by decide)
  exact flagsByte_archInv b h hn hst

/-- A payload byte (R173, R174): `pcnt` stays below the length of the frame, and the frame it completes has a good header. -/
theorem payByte_archInv (h : ArchInv pre) (hn : SameParser pre nx) (hst : pre.st = .pay) (he : payByte b pre nx = .ok a) :
    ArchInv a := by
  obtain ⟨hfill, hwin⟩ := h.emptyWindow (by simp [hst])
  obtain ⟨hpos, hlt, hid, hflags⟩ := h.payload hst
  obtain ⟨-, ⟨-, rfl⟩ | ⟨hne, rfl⟩⟩ := payByte_cases he
  · have h0 : pre.hLen ≠ 0#16 := fun h0 => by simp [h0] at hpos
    exact judgeChecksum_archInv _ ((hdrOk_iff _ _ _).2 ⟨hid, .inl hflags, by simp [h0, hflags]⟩)
  · have hnext : (pre.pcnt + 1#16).toNat < pre.hLen.toNat := by bv_omega
    rw [hn]
    exact .of_pay hst hfill hwin hnext hid hflags

/-- A byte's effect keeps the invariants, whatever a register write other than CMD does in its cycle (R163, R280). -/
theorem streamEffect_archInv (h : ArchInv pre) (hn : SameParser pre nx) (he : streamEffect b pre nx = .ok a) : ArchInv a := by
  obtain ⟨hst, rfl⟩ | ⟨hst, he⟩ | ⟨hst, he⟩ | ⟨-, rfl⟩ := streamEffect_cases he
  · exact huntByte_archInv b h hn hst
  · exact hdrByte_archInv h hn hst he
  · exact payByte_archInv h hn hst he
  · exact h.of_sameParser hn

/-- Where R52 holds, the states in which a byte stops the machine do not occur (log entry 7). -/
theorem exists_streamEffect_ok (b : Byte) (h : ArchInv pre) (nx : Arch) : ∃ a, streamEffect b pre nx = .ok a := by
  cases he : streamEffect b pre nx with
  | ok a => exact ⟨a, rfl⟩
  | error f =>
    obtain ⟨hst, hc⟩ | ⟨hst, hp⟩ := streamEffect_error he
    · have := h.headerCount hst
      omega
    · obtain ⟨-, hlt, -⟩ := h.payload hst
      have hlen := pre.hLen.isLt
      simp only [fbSize] at hp
      omega

end Bytes

/-! ## Each cycle keeps the invariants -/

/-- A taken byte meets no held frame, so no RELEASE takes effect in its cycle (R160, R212). -/
theorem releasesNow_of_byteTaken {i : CycleIn} {a : Arch} (h : byteTaken i a = true) : releasesNow i a = false := by
  simp_all [byteTaken, releasesNow]

theorem cycleElements_archInv {p : Params} {a n : Arch} {i : CycleIn} (h : ArchInv a) (hn : cycleElements p a i = .ok n) :
    ArchInv n := by
  unfold cycleElements at hn
  split_ifs at hn with hr ht
  · cases hn
    exact resetElements_archInv p a
  · simp only [Bool.and_eq_true, Bool.not_eq_true'] at ht
    obtain ⟨htaken, habort⟩ := ht
    have hsame := busElements_sameParser (by simpa using hr) (releasesNow_of_byteTaken htaken) habort
    exact streamEffect_archInv h hsame hn
  · cases hn
    exact busElements_archInv h i

theorem exists_cycleElements_ok (p : Params) {a : Arch} (i : CycleIn) (h : ArchInv a) : ∃ n, cycleElements p a i = .ok n := by
  unfold cycleElements
  split_ifs
  · exact ⟨_, rfl⟩
  · exact exists_streamEffect_ok _ h _
  · exact ⟨_, rfl⟩

/-- R52: a step keeps the invariants. -/
theorem step_keeps_archInv {s t : State} (h : ArchInv s.arch) (ht : step s = .next t) : ArchInv t.arch := by
  obtain ⟨n, hn, rfl⟩ := step_eq_next.1 ht
  exact cycleElements_archInv h hn

/-- From a state that meets R52 a step neither faults nor refuses. -/
theorem exists_step_next {s : State} (h : ArchInv s.arch) : ∃ t, step s = .next t := by
  obtain ⟨n, hn⟩ := exists_cycleElements_ok s.params (CycleIn.ofWord s.nextWord) h
  exact ⟨_, step_eq_next.2 ⟨n, hn, rfl⟩⟩

/-- A run goes on from the state its first step answers. -/
theorem core_run_succ {s t : State} (n : Nat) (h : step s = .next t) : Sys2Proof.core.run (n + 1) s = Sys2Proof.core.run n t := by
  have hstep : Sys2Proof.core.step s = .next t := h
  simp only [Host.Core.run, hstep]

end Sys2Proof.Machine
end

