-- ==== Sys2Proof/Proofs/Scope.lean ====
section
/-! The statements of the scope family (00_scope.md rules R5, R7, R9). -/

namespace Sys2Proof.Machine

/-- Settles O11: by induction on the number of steps, since a step from a state that meets R52 answers one that meets it again. -/
theorem frxNeverStops : Obligations.FrxNeverStops := by
  intro n
  induction n with
  | zero => exact fun s h => ⟨s, rfl, h⟩
  | succ n ih =>
    intro s h
    obtain ⟨u, hu⟩ := exists_step_next h
    obtain ⟨t, ht, hinv⟩ := ih u (step_keeps_archInv h hu)
    exact ⟨t, (core_run_succ n hu).trans ht, hinv⟩

/-- Settles O13: whatever the cycle does, the state after it is `State.afterCycle`. -/
theorem stepEndsQuiet : Obligations.StepEndsQuiet := by
  intro s t ht
  obtain ⟨n, -, rfl⟩ := step_eq_next.1 ht
  exact ⟨⟨rfl, rfl⟩, rfl, rfl, rfl⟩

end Sys2Proof.Machine
end

