-- ==== Sys2Proof/Proofs/CycleEffects.lean ====
section
/-! SUPPORT. What the bus operation and the stream byte of a cycle do to each element (10_state.md rules R33 to R51): a command
returns to HUNT, a register write changes its own register, a byte accepts a frame, rejects one or only collects. -/

namespace Sys2Proof.Machine

/-! ## The bus operation -/

/-- The bus effect of a write at byte address `n` (R70). -/
def writeEffect (n : Nat) : BusEffect :=
  if n = 0x10000 then .wrCtrl
  else if n = 0x10004 then .wrCmd
  else if n = 0x10008 then .wrStatus
  else if n = 0x1000C then .wrSync
  else if n = 0x10018 then .wrIrqEn
  else .none

/-- The register whose write has a bus effect (R70); `none` has no register, and its value here is not used. -/
def BusEffect.register : BusEffect → BusAddr
  | .none => 0#17
  | .wrCtrl => 0x10000#17
  | .wrCmd => 0x10004#17
  | .wrStatus => 0x10008#17
  | .wrSync => 0x1000C#17
  | .wrIrqEn => 0x10018#17

/-- The registers have different addresses (R70). -/
theorem writeEffect_eq_iff {e : BusEffect} (he : e ≠ .none) (n : Nat) : writeEffect n = e ↔ n = e.register.toNat := by
  unfold writeEffect
  cases e <;> simp only [BusEffect.register, BitVec.toNat_ofNat] <;> split_ifs <;> simp_all

/-- The FB window and the misaligned addresses have no effect. -/
theorem writeEffect_eq_none {n : Nat} (h : n % 4 ≠ 0 ∨ n < 0x10000) : writeEffect n = .none := by
  unfold writeEffect
  iterate 5 rw [if_neg (by omega)]

/-- Only a write has an effect, the one of its address (R280). -/
theorem decodeBusEffect_effect (a : Arch) (i : CycleIn) :
    (decodeBusEffect a i).2.2 = if i.busEn = true ∧ i.busWe = true then writeEffect i.busAddr.toNat else .none := by
  cases he : i.busEn <;> cases hw : i.busWe <;> simp only [decodeBusEffect, he, hw]
  · rfl
  · rfl
  · simp only [Bool.not_true, Bool.false_eq_true, and_false, if_false]
    split_ifs <;> rfl
  · by_cases h4 : i.busAddr.toNat % 4 ≠ 0
    · simp [h4, writeEffect_eq_none (.inl h4)]
    · by_cases hlt : i.busAddr.toNat < 0x10000
      · simp [h4, hlt, writeEffect_eq_none (.inr hlt)]
      · simp only [Bool.not_true, Bool.false_eq_true, h4, hlt, and_self, if_true, if_false, writeEffect]
        split_ifs <;> rfl

section Bus

variable {a : Arch} {i : CycleIn}

/-- An effect is the write of its own register. -/
theorem decodeBusEffect_eq_iff {e : BusEffect} (he : e ≠ .none) (a : Arch) (hr : i.rst = false) :
    (decodeBusEffect a i).2.2 = e ↔ writesReg i e.register = true := by
  rw [decodeBusEffect_effect]
  split
  · rename_i hw
    rw [writeEffect_eq_iff he, BitVec.toNat_inj]
    simp [writesReg, hr, hw]
  · rename_i hw
    simp only [writesReg, hr, Bool.and_eq_true, beq_iff_eq]
    exact ⟨fun h => absurd h.symm he, fun h => absurd ⟨h.1.1.2, h.1.2⟩ hw⟩

/-- Whatever a command does, it changes `st`, `win` and `fill` only (R212). -/
theorem backToHunt_ite (c : Bool) (n : Arch) :
    (if c = true then backToHunt n else n) =
      { n with
        st := if c = true then .hunt else n.st
        win := if c = true then 0#64 else n.win
        fill := if c = true then 0#4 else n.fill } := by
  cases c <;> rfl

/-- Each effect on its own elements. -/
theorem effectAtEdge_eq (e : BusEffect) (wd : Word) (pre n : Arch) :
    effectAtEdge e wd pre n =
      { n with
        st := (effectAtEdge e wd pre n).st, win := (effectAtEdge e wd pre n).win, fill := (effectAtEdge e wd pre n).fill
        en := if e = .wrCtrl then wd.getLsbD 0 else n.en
        rej := if e = .wrStatus then pre.rej && !wd.getLsbD 5 else n.rej
        sync := if e = .wrSync then wd else n.sync
        ieReady := if e = .wrIrqEn then wd.getLsbD 0 else n.ieReady
        ieRej := if e = .wrIrqEn then wd.getLsbD 1 else n.ieRej } := by
  cases e with
  | wrCmd => simp only [effectAtEdge, backToHunt_ite]; rfl
  | _ => rfl

/-- The elements after a bus operation but for those of a command (R203, R210, R211, R215). -/
theorem busElements_eq (a : Arch) (hr : i.rst = false) :
    busElements a i =
      { a with
        st := (busElements a i).st, win := (busElements a i).win, fill := (busElements a i).fill
        en := if writesReg i 0x10000#17 = true then i.busWdata.getLsbD 0 else a.en
        rej := if writesReg i 0x10008#17 = true then a.rej && !i.busWdata.getLsbD 5 else a.rej
        sync := if writesReg i 0x1000C#17 = true then i.busWdata else a.sync
        ieReady := if writesReg i 0x10018#17 = true then i.busWdata.getLsbD 0 else a.ieReady
        ieRej := if writesReg i 0x10018#17 = true then i.busWdata.getLsbD 1 else a.ieRej } := by
  have hctrl := decodeBusEffect_eq_iff (e := .wrCtrl) (by simp) a hr
  have hstatus := decodeBusEffect_eq_iff (e := .wrStatus) (by simp) a hr
  have hsync := decodeBusEffect_eq_iff (e := .wrSync) (by simp) a hr
  have hirq := decodeBusEffect_eq_iff (e := .wrIrqEn) (by simp) a hr
  simp only [BusEffect.register] at hctrl hstatus hsync hirq
  simp only [← hctrl, ← hstatus, ← hsync, ← hirq]
  exact effectAtEdge_eq _ _ _ _

@[simp] theorem busElements_fb (a : Arch) (i : CycleIn) : (busElements a i).fb = a.fb :=
  (congrArg Arch.fb (effectAtEdge_eq _ i.busWdata a a) :)

/-- No bus operation writes RX_INFO or RX_CSUM (R213, R214). -/
theorem busElements_rx (a : Arch) (i : CycleIn) :
    ((busElements a i).rxLen, (busElements a i).rxId, (busElements a i).rxFlags, (busElements a i).rxCsum) =
      (a.rxLen, a.rxId, a.rxFlags, a.rxCsum) :=
  (congrArg (fun n => (n.rxLen, n.rxId, n.rxFlags, n.rxCsum)) (effectAtEdge_eq _ i.busWdata a a) :)

/-- An effective RELEASE or ABORT (R212). -/
theorem busElements_of_command (h : releasesNow i a = true ∨ abortsNow i a = true) : busElements a i = backToHunt a := by
  have hcmd : i.busEn = true ∧ i.busWe = true ∧ i.busAddr = 0x10004#17 := by
    rcases h with h | h <;> simp_all [releasesNow, abortsNow]
  have heff : (releaseEffective i.busWdata a || abortEffective i.busWdata a) = true := by
    rcases h with h | h <;> simp_all [releasesNow, abortsNow, releaseEffective, abortEffective, wdRelease, wdAbort]
  simp only [busElements, (decodeBusEffect_eq_wrCmd a i).2 hcmd, effectAtEdge, heff, if_true]

/-- Writes beside the parser leave its state. -/
theorem SameParser.st_eq {pre nx : Arch} (h : SameParser pre nx) : nx.st = pre.st := (congrArg Arch.st h :)

/-- The state of the parser after a bus operation. -/
theorem busElements_st (hr : i.rst = false) :
    (busElements a i).st = if releasesNow i a = true ∨ abortsNow i a = true then .hunt else a.st := by
  split
  · rename_i hc; rw [busElements_of_command hc]; rfl
  · rename_i hc
    simp only [not_or, Bool.not_eq_true] at hc
    exact (busElements_sameParser hr hc.1 hc.2).st_eq

/-- Of the bus operations only an effective RELEASE leaves HOLD (R175, R212); an ABORT takes effect outside it. -/
theorem busElements_hold_iff (hr : i.rst = false) :
    (busElements a i).st = .hold ↔ a.st = .hold ∧ releasesNow i a = false := by
  rw [busElements_st hr]
  split
  · rename_i hc
    have habort : abortsNow i a = true → a.st ≠ .hold := by simp [abortsNow]
    have hnot : ¬(a.st = .hold ∧ releasesNow i a = false) := fun ⟨hst, hrel⟩ => hc.elim (by simp [hrel]) fun h => habort h hst
    simp [hnot]
  · rename_i hc
    simp only [not_or, Bool.not_eq_true] at hc
    simp [hc.1]

end Bus

/-! ## The stream byte -/

/-- The flags byte of a frame that the taken byte `b` completes (R171, R174). -/
def completedFlags (b : Byte) (a : Arch) : Byte := if a.st = .pay then a.hFlags else b

/-- `m` is `nx` but for the parser's own elements, and for `FB[pcnt]`, which holds the byte `b` if that is a payload byte (R165 to
R173). -/
def Collects (b : Byte) (pre nx m : Arch) : Prop :=
  m = { nx with
    st := m.st, win := m.win, fill := m.fill, hcnt := m.hcnt, hLen := m.hLen, hCsum := m.hCsum, hId := m.hId, hFlags := m.hFlags,
    pcnt := m.pcnt, acc := m.acc
    fb := if pre.st = .pay then nx.fb.write pre.pcnt.toNat b else nx.fb }

/-- What the taken byte `b` makes of the collected elements `m`: a frame accepted, a frame rejected, or neither. -/
def Judged (b : Byte) (pre m a : Arch) : Prop :=
  (acceptsNow b pre = true ∧ rejectsNow b pre = false ∧ a = accept (completedFlags b pre) pre m) ∨
  (acceptsNow b pre = false ∧ rejectsNow b pre = true ∧ a = reject m) ∨
  (acceptsNow b pre = false ∧ rejectsNow b pre = false ∧ a = m)

section Byte

variable {b : Byte} {pre nx a : Arch}

theorem accAfter_of_hdr (b : Byte) (hst : pre.st = .hdr) : accAfter b pre = accWith (8 + pre.hcnt.toNat) b pre := by
  simp [accAfter, accWith, hst]

theorem accAfter_of_pay (b : Byte) (hst : pre.st = .pay) : accAfter b pre = accWith (14 + pre.pcnt.toNat) b pre := by
  simp [accAfter, accWith, hst]

/-- A complete frame is judged by its checksum alone: its header, if the byte ends it, passed R172. -/
theorem rejectsNow_of_completesFrame (hc : completesFrame b pre = true) : rejectsNow b pre = !acceptsNow b pre := by
  have hk : (decide (pre.st = .hdr) && pre.hcnt == 5#3 && !hdrOk pre.hLen pre.hId b) = false := by
    simp only [completesFrame, Bool.or_eq_true, Bool.and_eq_true, decide_eq_true_eq] at hc
    obtain ⟨⟨-, hk⟩, -⟩ | ⟨hst, -⟩ := hc
    · simp [hk]
    · simp [hst]
  simp [rejectsNow, acceptsNow, hc, hk]

/-- Complete frames (R140, R174). -/
theorem judgeChecksum_judged (m : Arch) (hc : completesFrame b pre = true) :
    Judged b pre m (judgeChecksum (accAfter b pre) (completedFlags b pre) pre m) := by
  obtain ⟨hacc, he⟩ | ⟨hacc, he⟩ := judgeChecksum_cases (accAfter b pre) (completedFlags b pre) pre m
  · have ha : acceptsNow b pre = true := by simp [acceptsNow, hc, hacc]
    exact .inl ⟨ha, by simp [rejectsNow_of_completesFrame hc, ha], he⟩
  · have ha : acceptsNow b pre = false := by simp [acceptsNow, hc, hacc]
    exact .inr (.inl ⟨ha, by simp [rejectsNow_of_completesFrame hc, ha], he⟩)

/-- Some collected elements lead to `a`; HOLD is not entered by collecting (R177). -/
def CollectsAndJudges (b : Byte) (pre nx a : Arch) : Prop :=
  ∃ m, Collects b pre nx m ∧ (m.st = .hold → nx.st = .hold) ∧ Judged b pre m a

/-- A byte that neither ends a frame nor fails a header only collects. -/
theorem collectsAndJudges_self (hm : Collects b pre nx a) (hst : a.st = .hold → nx.st = .hold) (hc : completesFrame b pre = false)
    (hk : pre.st = .hdr → pre.hcnt = 5#3 → hdrOk pre.hLen pre.hId b = true) : CollectsAndJudges b pre nx a := by
  have hr : rejectsNow b pre = false := by simpa [rejectsNow, hc] using hk
  exact ⟨a, hm, hst, .inr (.inr ⟨by simp [acceptsNow, hc], hr, rfl⟩)⟩

theorem huntByte_collects (b : Byte) (nx : Arch) (hst : pre.st = .hunt) : CollectsAndJudges b pre nx (huntByte b pre nx) := by
  have hc : completesFrame b pre = false := by simp [completesFrame, hst]
  obtain ⟨-, -, he⟩ | ⟨-, he⟩ := huntByte_cases b pre nx <;> rw [he]
  · exact collectsAndJudges_self (by simp [Collects, syncFound, hst]) (by simp [syncFound]) hc (by simp [hst])
  · exact collectsAndJudges_self (by simp [Collects, hst]) id hc (by simp [hst])

theorem flagsByte_collects (b : Byte) (nx : Arch) (hst : pre.st = .hdr) (hc : pre.hcnt = 5#3) :
    CollectsAndJudges b pre nx (flagsByte b pre nx) := by
  have hcollects : Collects b pre nx { nx with acc := accWith 13 b pre, hFlags := b } := by simp [Collects, hst]
  obtain ⟨hk, he⟩ | ⟨hk, h0, he⟩ | ⟨hk, h0, he⟩ := flagsByte_cases b pre nx <;> rw [he]
  · refine ⟨_, hcollects, id, .inr (.inl ⟨?_, ?_, rfl⟩)⟩ <;> simp [acceptsNow, rejectsNow, completesFrame, hst, hc, hk]
  · have hj := judgeChecksum_judged (b := b) (pre := pre) { nx with acc := accWith 13 b pre, hFlags := b }
      (by rw [h0] at hk; simp [completesFrame, hst, hc, h0, hk])
    rw [accAfter_of_hdr b hst, completedFlags, if_neg (by simp [hst]), hc] at hj
    exact ⟨_, hcollects, id, hj⟩
  · exact collectsAndJudges_self (by simp [Collects, hst]) (by simp) (by simp [completesFrame, hst, h0]) fun _ _ => hk

theorem hdrByte_collects (hst : pre.st = .hdr) (h : hdrByte b pre nx = .ok a) : CollectsAndJudges b pre nx a := by
  have collects (acc hLen hCsum : Half) (hId : Byte) (hcnt : BitVec 3) (hc : pre.hcnt ≠ 5#3) :
      CollectsAndJudges b pre nx { nx with acc := acc, hLen := hLen, hCsum := hCsum, hId := hId, hcnt := hcnt } :=
    collectsAndJudges_self (by simp [Collects, hst]) id (by simp [completesFrame, hst, hc]) fun _ h5 => absurd h5 hc
  obtain ⟨hc, rfl⟩ | ⟨hc, rfl⟩ | ⟨hc, rfl⟩ | ⟨hc, rfl⟩ | ⟨hc, rfl⟩ | ⟨hc, rfl⟩ := hdrByte_cases h
  iterate 5 exact collects _ _ _ _ _ (by simp [hc])
  exact flagsByte_collects b nx hst hc

theorem payByte_collects (hst : pre.st = .pay) (h : payByte b pre nx = .ok a) : CollectsAndJudges b pre nx a := by
  have hcollects (acc pcnt : Half) :
      Collects b pre nx { nx with fb := nx.fb.write pre.pcnt.toNat b, acc := acc, pcnt := pcnt } := by simp [Collects, hst]
  obtain ⟨-, ⟨hl, rfl⟩ | ⟨hl, rfl⟩⟩ := payByte_cases h
  · rw [← accAfter_of_pay b hst, ← (if_pos hst : completedFlags b pre = pre.hFlags)]
    exact ⟨_, hcollects _ _, id, judgeChecksum_judged _ (by simp [completesFrame, hst, hl])⟩
  · exact collectsAndJudges_self (hcollects _ _) id (by simp [completesFrame, hst, hl]) (by simp [hst])

/-- What `streamEffect_cases` says, sorted by the verdict: every taken byte collects, then a frame may be judged (R163). -/
theorem streamEffect_collects (h : streamEffect b pre nx = .ok a) : CollectsAndJudges b pre nx a := by
  obtain ⟨hst, rfl⟩ | ⟨hst, he⟩ | ⟨hst, he⟩ | ⟨hst, rfl⟩ := streamEffect_cases h
  · exact huntByte_collects b nx hst
  · exact hdrByte_collects hst he
  · exact payByte_collects hst he
  · exact collectsAndJudges_self (by simp [Collects, hst]) id (by simp [completesFrame, hst]) (by simp [hst])

/-! What a taken byte leaves in each element. -/

/-- Neither a verdict nor the parser writes the control registers, and a verdict does not write FB. -/
theorem streamEffect_frame (h : streamEffect b pre nx = .ok a) :
    a.en = nx.en ∧ a.sync = nx.sync ∧ a.ieReady = nx.ieReady ∧ a.ieRej = nx.ieRej ∧
    a.fb = if pre.st = .pay then nx.fb.write pre.pcnt.toNat b else nx.fb := by
  obtain ⟨m, hm, -, ⟨-, -, rfl⟩ | ⟨-, -, rfl⟩ | ⟨-, -, rfl⟩⟩ := streamEffect_collects h <;>
    exact ⟨(congrArg Arch.en hm :), (congrArg Arch.sync hm :), (congrArg Arch.ieReady hm :), (congrArg Arch.ieRej hm :),
      (congrArg Arch.fb hm :)⟩

/-- RX_INFO and RX_CSUM are written by ACCEPT (R177). -/
theorem streamEffect_rx (h : streamEffect b pre nx = .ok a) :
    (a.rxLen, a.rxId, a.rxFlags, a.rxCsum) =
      if acceptsNow b pre = true then (pre.hLen, pre.hId, completedFlags b pre, pre.hCsum)
      else (nx.rxLen, nx.rxId, nx.rxFlags, nx.rxCsum) := by
  obtain ⟨m, hm, -, hj⟩ := streamEffect_collects h
  have hrx : (m.rxLen, m.rxId, m.rxFlags, m.rxCsum) = (nx.rxLen, nx.rxId, nx.rxFlags, nx.rxCsum) :=
    (congrArg (fun m => (m.rxLen, m.rxId, m.rxFlags, m.rxCsum)) hm :)
  obtain ⟨ha, -, rfl⟩ | ⟨ha, -, rfl⟩ | ⟨ha, -, rfl⟩ := hj
  · rw [if_pos ha]; rfl
  all_goals rw [if_neg (by simp [ha])]; exact hrx

/-- REJ is set by REJECT (R176). -/
theorem streamEffect_rej (h : streamEffect b pre nx = .ok a) : a.rej = (rejectsNow b pre || nx.rej) := by
  obtain ⟨m, hm, -, hj⟩ := streamEffect_collects h
  have hrej : m.rej = nx.rej := (congrArg Arch.rej hm :)
  obtain ⟨-, hr, rfl⟩ | ⟨-, hr, rfl⟩ | ⟨-, hr, rfl⟩ := hj <;> simp [hr, accept, reject, hrej]

/-- A byte taken outside HOLD ends in HOLD exactly if it accepts a frame (R175, R177). -/
theorem streamEffect_hold_iff (h : streamEffect b pre nx = .ok a) (hn : nx.st ≠ .hold) :
    a.st = .hold ↔ acceptsNow b pre = true := by
  obtain ⟨m, -, hm, ⟨ha, -, rfl⟩ | ⟨ha, -, rfl⟩ | ⟨ha, -, rfl⟩⟩ := streamEffect_collects h
  · simp [ha, accept]
  · simp [ha, reject]
  · simp [ha, mt hm hn]

/-- A payload byte is written inside FB (R46, R173). -/
theorem streamEffect_pay_lt (h : streamEffect b pre nx = .ok a) (hst : pre.st = .pay) : pre.pcnt.toNat < fbSize := by
  simp only [streamEffect, hst] at h
  exact (payByte_cases h).1

/-! Where a taken byte stops the machine (log entry 7). -/

/-- A header byte does for `hcnt` 6 and 7 only (R35). -/
theorem hdrByte_eq_error_iff {f : Fault} :
    hdrByte b pre nx = .error f ↔ f = .headerCountOutOfRange ∧ 6 ≤ pre.hcnt.toNat := by
  unfold hdrByte
  split
  case h_7 h0 h1 h2 h3 h4 h5 =>
    have h6 : 6 ≤ pre.hcnt.toNat := by
      simp only [imp_false] at h0 h1 h2 h3 h4 h5
      omega
    simp [h6, eq_comm]
  all_goals simp [*]

/-- A payload byte does for the nonexistent `FB[65535]` only (R46). -/
theorem payByte_eq_error_iff {f : Fault} :
    payByte b pre nx = .error f ↔ f = .frameBufferOutOfRange ∧ pre.pcnt.toNat = 65535 := by
  have hlt : pre.pcnt.toNat < 2 ^ 16 := pre.pcnt.isLt
  have hsize : fbSize = 65535 := rfl
  simp only [payByte]
  split
  · split <;> simp only [reduceCtorEq, false_iff] <;> omega
  · have hp : pre.pcnt.toNat = 65535 := by omega
    simp [hp, eq_comm]

/-- The stops of S_BYTE's effect, by the parser state (R163). -/
theorem streamEffect_eq_error_iff {f : Fault} :
    streamEffect b pre nx = .error f ↔
      (f = .headerCountOutOfRange ∧ pre.st = .hdr ∧ 6 ≤ pre.hcnt.toNat) ∨
        (f = .frameBufferOutOfRange ∧ pre.st = .pay ∧ pre.pcnt.toNat = 65535) := by
  cases hst : pre.st <;> simp [streamEffect, hst, hdrByte_eq_error_iff, payByte_eq_error_iff]

/-- S_BYTE stops exactly where the effect of a taken and not dropped byte is undefined. -/
theorem execSByte_eq_fault_iff {d : Byte} {s : State} {f : Fault} :
    execSByte d s = .fault f ↔ (inReady s.arch && !s.abort) = true ∧ streamEffect d s.arch s.next = .error f := by
  unfold execSByte
  split
  · cases streamEffect d s.arch s.next <;> simp [*]
  · simp [*]

theorem execSByte_ne_refused (d : Byte) (s : State) (r : Refusal) : execSByte d s ≠ .refused r := by
  unfold execSByte
  split
  · cases streamEffect d s.arch s.next <;> simp
  · simp

end Byte

/-! ## The cycle -/

/-- Everything a cycle can do to the elements: a reset, a bus operation with a taken byte that is not dropped, a bus operation
alone (R280). -/
theorem step_cases {s t : State} (h : step s = .next t) :
    ((CycleIn.ofWord s.nextWord).rst = true ∧ t.arch = resetElements s.params s.arch) ∨
    ((CycleIn.ofWord s.nextWord).rst = false ∧
      (byteTaken (CycleIn.ofWord s.nextWord) s.arch = true ∧ abortsNow (CycleIn.ofWord s.nextWord) s.arch = false) ∧
      streamEffect (CycleIn.ofWord s.nextWord).inData s.arch (busElements s.arch (CycleIn.ofWord s.nextWord)) = .ok t.arch) ∨
    ((CycleIn.ofWord s.nextWord).rst = false ∧
      ¬(byteTaken (CycleIn.ofWord s.nextWord) s.arch = true ∧ abortsNow (CycleIn.ofWord s.nextWord) s.arch = false) ∧
      t.arch = busElements s.arch (CycleIn.ofWord s.nextWord)) := by
  obtain ⟨n, hn, rfl⟩ := step_eq_next.1 h
  unfold cycleElements at hn
  split_ifs at hn with hr ht
  · exact .inl ⟨hr, by cases hn; rfl⟩
  · exact .inr (.inl ⟨by simpa using hr, by simpa using ht, hn⟩)
  · exact .inr (.inr ⟨by simpa using hr, by simpa using ht, by cases hn; rfl⟩)

/-- In a reset cycle no byte is taken (R270). -/
theorem byteTaken_of_rst {i : CycleIn} (a : Arch) (hr : i.rst = true) : byteTaken i a = false := by simp [byteTaken, hr]

/-- A taken and not dropped byte finds the parser where it was, whatever is written beside it (R160, R212, R216). -/
theorem busElements_sameParser_of_taken {a : Arch} {i : CycleIn} (hr : i.rst = false)
    (ht : byteTaken i a = true ∧ abortsNow i a = false) : SameParser a (busElements a i) :=
  busElements_sameParser hr (releasesNow_of_byteTaken ht.1) ht.2

end Sys2Proof.Machine
end

