-- ==== Sys2Proof/Proofs/ChecksumInvariant.lean ====
section
/-! SUPPORT. The running checksum (10_state.md rule R38, 40_checksum.md rules R138 to R141): `acc` is the folded sum of the frame bytes
taken so far, and a cycle keeps that while SYNC is not written. -/

namespace Sys2Proof.Machine

/-! ## The accumulator and the exact sum -/

/-- One end-around carry is enough for the sum of two halves (R131). -/
theorem ocadd_toNat (a v : Half) : (ocadd a v).toNat = fold (a.toNat + v.toNat) := by
  have ha := a.isLt
  have hv := v.isLt
  simp only [ocadd, and_0xFFFF, shiftRight_16, BitVec.toNat_ofNat, fold_closed]
  obtain hcarry | hcarry : (a.toNat + v.toNat) / 65536 = 0 ∨ (a.toNat + v.toNat) / 65536 = 1 := by omega
  all_goals rw [hcarry]; split <;> omega

/-- A byte adds its contribution at its own offset (R138). -/
theorem wordsum_snoc : ∀ (xs : List Byte) (b : Byte), wordsum (xs ++ [b]) = wordsum xs + (contrib xs.length b).toNat
  | [], b => by simp [wordsum, contrib_toNat, Nat.shiftLeft_eq]
  | [x], b => by simp [wordsum, contrib_toNat]
  | x :: y :: xs, b => by
    have ih := wordsum_snoc xs b
    simp only [contrib_toNat] at ih
    simp only [List.cons_append, wordsum, contrib_toNat, List.length_cons, Nat.add_assoc, Nat.reduceAdd, Nat.add_mod_right, ih]

/-- Taking a byte adds it to the folded sum of the bytes before it (R139). -/
theorem accWith_toNat {pre : Arch} {bs : List Byte} (b : Byte) (h : pre.acc.toNat = fold (wordsum bs)) :
    (accWith bs.length b pre).toNat = fold (wordsum (bs ++ [b])) := by
  rw [accWith, ocadd_toNat, h, fold_fold_add, wordsum_snoc]

theorem fold_lt (s : Nat) : fold s < 2 ^ 16 := by
  rw [fold_closed]
  split <;> omega

/-- A byte string passes `verify` exactly if its folded sum is all ones (R134, R135). -/
theorem verify_iff (bs : List Byte) : verify bs = true ↔ fold (wordsum bs) = 0xFFFF := by
  have hlt := fold_lt (wordsum bs)
  rw [verify, compute, beq_iff_eq, ← BitVec.toNat_inj, BitVec.toNat_not, BitVec.toNat_ofNat, BitVec.toNat_ofNat]
  omega

/-- The accumulator starts as the folded sum of the 8 sync bytes (R141). -/
theorem sacc_toNat (sync : Word) : (sacc sync).toNat = fold (wordsum (wordBytes sync ++ wordBytes sync)) := by
  have hhi : (sync.extractLsb' 16 16).toNat = (sync.extractLsb' 24 8).toNat * 256 + (sync.extractLsb' 16 8).toNat := by
    simp only [BitVec.extractLsb'_toNat, Nat.shiftRight_eq_div_pow]; omega
  have hlo : (sync.extractLsb' 0 16).toNat = (sync.extractLsb' 8 8).toNat * 256 + (sync.extractLsb' 0 8).toNat := by
    simp only [BitVec.extractLsb'_toNat, Nat.shiftRight_eq_div_pow]; omega
  simp only [sacc, ocadd_toNat, fold_fold_add, hhi, hlo, wordBytes, List.cons_append, List.nil_append, wordsum, Nat.shiftLeft_eq]
  congr 1
  simp only [BitVec.toNat_ofNat]
  omega

/-! ## The frame so far -/

@[simp] theorem header_length (s : Word) (n c : Half) (i f : Byte) : (header s n c i f).length = 14 := rfl

@[simp] theorem fbBytes_length (m : Memory) (n : Nat) : (fbBytes m n).length = n := by simp [fbBytes]

/-- A payload byte lengthens the payload in FB (R173). -/
theorem fbBytes_write (m : Memory) (p : Nat) (b : Byte) : fbBytes (m.write p b) (p + 1) = fbBytes m p ++ [b] := by
  have hbefore : (List.range p).map (fbRead (m.write p b)) = (List.range p).map (fbRead m) :=
    List.map_congr_left fun j hj => by rw [fbRead_write, if_neg (List.mem_range.1 hj).ne]
  simp [fbBytes, List.range_succ, hbefore, fbRead_write]

@[simp] theorem setHigh_high (v : Half) (b : Byte) : (setHigh v b).extractLsb' 8 8 = b := by
  rw [setHigh, BitVec.extractLsb'_append_eq_of_le (by decide)]
  exact BitVec.extractLsb'_eq_self

@[simp] theorem setLow_high (v : Half) (b : Byte) : (setLow v b).extractLsb' 8 8 = v.extractLsb' 8 8 := by
  rw [setLow, BitVec.extractLsb'_append_eq_of_le (by decide)]
  exact BitVec.extractLsb'_eq_self

@[simp] theorem setLow_low (v : Half) (b : Byte) : (setLow v b).extractLsb' 0 8 = b := by
  rw [setLow, BitVec.extractLsb'_append_eq_of_add_le (by decide)]
  exact BitVec.extractLsb'_eq_self

section Invariant

variable {sync : Word} {pre nx a : Arch} {b : Byte}

theorem frameSoFar_of_hdr (hst : a.st = .hdr) :
    frameSoFar sync a = (header sync a.hLen a.hCsum a.hId a.hFlags).take (8 + a.hcnt.toNat) := by simp only [frameSoFar, hst]

theorem frameSoFar_length_of_hdr (hst : a.st = .hdr) (hc : a.hcnt.toNat ≤ 5) :
    (frameSoFar sync a).length = 8 + a.hcnt.toNat := by
  rw [frameSoFar_of_hdr hst, List.length_take, header_length]
  omega

theorem frameSoFar_of_pay (hst : a.st = .pay) :
    frameSoFar sync a = header sync a.hLen a.hCsum a.hId a.hFlags ++ fbBytes a.fb a.pcnt.toNat := by simp only [frameSoFar, hst]

/-- The frame is the parser's: writes beside it do not change it. -/
theorem SameParser.frameSoFar_eq (h : SameParser pre nx) : frameSoFar sync nx = frameSoFar sync pre := by
  rw [SameParser] at h
  rw [h]
  rfl

theorem SameParser.acc_eq (h : SameParser pre nx) : nx.acc = pre.acc := (congrArg Arch.acc h :)

theorem SameParser.exists_eq (h : SameParser pre nx) :
    ∃ en sync rej ieReady ieRej, nx = { pre with en := en, sync := sync, rej := rej, ieReady := ieReady, ieRej := ieRej } :=
  ⟨_, _, _, _, _, h⟩

theorem ChecksumInv.of_sameParser (h : ChecksumInv sync pre) (hn : SameParser pre nx) (hs : nx.sync = sync) : ChecksumInv sync nx where
  syncIs := hs
  running hst := by
    rw [hn.frameSoFar_eq, hn.acc_eq]
    exact h.running (hn.st_eq ▸ hst)
  held hst := by
    rw [hn.frameSoFar_eq]
    exact h.held (hn.st_eq ▸ hst)

/-- Searching, no frame has bytes. -/
theorem ChecksumInv.of_hunt (hs : a.sync = sync) (hst : a.st = .hunt) : ChecksumInv sync a :=
  ⟨hs, fun h => by simp [hst] at h, fun h => by simp [hst] at h⟩

/-- A byte taken into a frame that is still incomplete (R38, R139). -/
theorem ChecksumInv.snoc (h : ChecksumInv sync pre) (hpre : pre.st = .hdr ∨ pre.st = .pay) (hs : a.sync = sync) (hst : a.st ≠ .hold)
    (hframe : frameSoFar sync a = frameSoFar sync pre ++ [b]) (hacc : a.acc = accWith (frameSoFar sync pre).length b pre) :
    ChecksumInv sync a where
  syncIs := hs
  running _ := by rw [hframe, hacc, accWith_toNat b (h.running hpre)]
  held hh := absurd hh hst

/-- A complete frame is held only if it passes `verify` (R140). -/
theorem judgeChecksum_checksumInv {acc1 : Half} {f : Byte} (hs : nx.sync = sync)
    (hacc : acc1.toNat = fold (wordsum (header sync pre.hLen pre.hCsum pre.hId f ++ fbBytes nx.fb pre.hLen.toNat))) :
    ChecksumInv sync (judgeChecksum acc1 f pre nx) := by
  obtain ⟨hgood, he⟩ | ⟨-, he⟩ := judgeChecksum_cases acc1 f pre nx <;> rw [he]
  · refine ⟨hs, fun h => by simp [accept] at h, fun _ => (verify_iff _).2 ?_⟩
    rw [hgood] at hacc
    exact hacc.symm
  · exact .of_hunt hs rfl

/-- A found sync pattern starts the frame and its sum (R141, R166). -/
theorem huntByte_checksumInv (b : Byte) (hp : pre.sync = sync) (hs : nx.sync = sync) (hst : nx.st = .hunt) :
    ChecksumInv sync (huntByte b pre nx) := by
  obtain ⟨-, -, he⟩ | ⟨-, he⟩ := huntByte_cases b pre nx <;> rw [he]
  · refine ⟨hs, fun _ => ?_, fun h => by simp [syncFound] at h⟩
    rw [← hp]
    exact sacc_toNat pre.sync
  · exact .of_hunt hs hst

/-- The flags byte is the last of the header (R171). -/
theorem flagsByte_checksumInv (b : Byte) (h : ChecksumInv sync pre) (hn : SameParser pre nx) (hs : nx.sync = sync) (hst : pre.st = .hdr)
    (hc : pre.hcnt = 5#3) : ChecksumInv sync (flagsByte b pre nx) := by
  have hframe : frameSoFar sync pre ++ [b] = header sync pre.hLen pre.hCsum pre.hId b := by
    rw [frameSoFar_of_hdr hst, hc]
    rfl
  have hlen : (frameSoFar sync pre).length = 13 := by
    rw [frameSoFar_length_of_hdr hst (by simp [hc]), hc]
    rfl
  obtain ⟨-, he⟩ | ⟨-, h0, he⟩ | ⟨-, -, he⟩ := flagsByte_cases b pre nx <;> rw [he]
  · exact .of_hunt hs rfl
  · refine judgeChecksum_checksumInv hs ?_
    rw [← hlen, accWith_toNat b (h.running (.inl hst)), hframe, h0]
    simp [fbBytes]
  · refine h.snoc (b := b) (.inl hst) hs (by simp) ?_ (by rw [hlen])
    rw [hframe, hn, frameSoFar_of_pay rfl]
    simp [fbBytes]

/-- A header byte goes to the place in its field that it has in the frame (R168 to R171). -/
theorem hdrByte_checksumInv (h : ChecksumInv sync pre) (hn : SameParser pre nx) (hs : nx.sync = sync) (hst : pre.st = .hdr)
    (he : hdrByte b pre nx = .ok a) : ChecksumInv sync a := by
  have snoc {k : Nat} {a : Arch} (hk : pre.hcnt.toNat = k ∧ k ≤ 5)
      (ha : a.sync = sync ∧ a.st = .hdr ∧ a.acc = accWith (8 + k) b pre)
      (hframe : frameSoFar sync a = frameSoFar sync pre ++ [b]) : ChecksumInv sync a := by
    obtain ⟨hsync, hhdr, hacc⟩ := ha
    refine h.snoc (.inl hst) hsync (by simp [hhdr]) hframe ?_
    rw [frameSoFar_length_of_hdr hst (by omega), hk.1, hacc]
  obtain ⟨_, _, _, _, _, rfl⟩ := hn.exists_eq
  obtain ⟨hc, rfl⟩ | ⟨hc, rfl⟩ | ⟨hc, rfl⟩ | ⟨hc, rfl⟩ | ⟨hc, rfl⟩ | ⟨hc, rfl⟩ := hdrByte_cases he
  iterate 5
    refine snoc ⟨congrArg BitVec.toNat hc, by decide⟩ ⟨hs, hst, rfl⟩ (Eq.trans (frameSoFar_of_hdr hst) ?_)
    rw [frameSoFar_of_hdr hst]
    simp [hc, header, wordBytes, halfBytes]
  exact flagsByte_checksumInv b h hn hs hst hc

/-- A payload byte goes to FB, below the length of the frame (R173, R174). -/
theorem payByte_checksumInv (hinv : ArchInv pre) (h : ChecksumInv sync pre) (hn : SameParser pre nx) (hs : nx.sync = sync)
    (hst : pre.st = .pay) (he : payByte b pre nx = .ok a) : ChecksumInv sync a := by
  have hlen : (frameSoFar sync pre).length = 14 + pre.pcnt.toNat := by rw [frameSoFar_of_pay hst]; simp
  have hframe : frameSoFar sync pre ++ [b] = header sync pre.hLen pre.hCsum pre.hId pre.hFlags ++
      fbBytes (pre.fb.write pre.pcnt.toNat b) (pre.pcnt.toNat + 1) := by
    rw [frameSoFar_of_pay hst, fbBytes_write, List.append_assoc]
  obtain ⟨-, hlt, -⟩ := hinv.payload hst
  obtain ⟨_, _, _, _, _, rfl⟩ := hn.exists_eq
  obtain ⟨-, ⟨hl, rfl⟩ | ⟨hl, rfl⟩⟩ := payByte_cases he
  · refine judgeChecksum_checksumInv hs ?_
    rw [← hlen, accWith_toNat b (h.running (.inr hst)), hframe, hl]
  · have hp : (pre.pcnt + 1#16).toNat = pre.pcnt.toNat + 1 := by bv_omega
    refine h.snoc (b := b) (.inr hst) hs (by simp [hst]) (Eq.trans (frameSoFar_of_pay hst) ?_) (by rw [hlen])
    rw [hframe, hp]

/-- A taken byte keeps the checksum invariant, whatever a register write other than CMD and SYNC does in its cycle (R163, R280). -/
theorem streamEffect_checksumInv (hinv : ArchInv pre) (h : ChecksumInv sync pre) (hn : SameParser pre nx) (hs : nx.sync = sync)
    (he : streamEffect b pre nx = .ok a) : ChecksumInv sync a := by
  obtain ⟨hst, rfl⟩ | ⟨hst, he⟩ | ⟨hst, he⟩ | ⟨-, rfl⟩ := streamEffect_cases he
  · exact huntByte_checksumInv b h.syncIs hs (hn.st_eq.trans hst)
  · exact hdrByte_checksumInv h hn hs hst he
  · exact payByte_checksumInv hinv h hn hs hst he
  · exact h.of_sameParser hn hs

/-- A bus operation that does not write SYNC keeps the checksum invariant: a command discards the frame. -/
theorem busElements_checksumInv {i : CycleIn} (h : ChecksumInv sync a) (hr : i.rst = false) (hs : (busElements a i).sync = sync) :
    ChecksumInv sync (busElements a i) := by
  by_cases hc : releasesNow i a = true ∨ abortsNow i a = true
  · exact .of_hunt hs (by rw [busElements_st hr, if_pos hc])
  · simp only [not_or, Bool.not_eq_true] at hc
    exact h.of_sameParser (busElements_sameParser hr hc.1 hc.2) hs

end Invariant

end Sys2Proof.Machine
end

