-- ==== Sys2Proof/Proofs/State.lean ====
section
/-! The statements of the state family (10_state.md rules R33 to R52). -/

namespace Sys2Proof.Machine

/-- Settles O9: each rule of the parser keeps each invariant of R52. -/
theorem stepKeepsArchInv : Obligations.StepKeepsArchInv := fun _ _ h ht => step_keeps_archInv h ht

/-- Settles O12: only a payload byte is written, and its address is inside FB. -/
theorem stepKeepsMemoryCanonical : Obligations.StepKeepsMemoryCanonical := by
  intro s t hwf ht
  obtain ⟨-, he⟩ | ⟨-, -, he⟩ | ⟨-, -, he⟩ := step_cases ht
  · rw [he]
    exact hwf
  · obtain ⟨-, -, -, -, hfb⟩ := streamEffect_frame he
    rw [hfb, busElements_fb]
    split
    · exact Memory.wf_write _ hwf (streamEffect_pay_lt he ‹_›)
    · exact hwf
  · rw [he, busElements_fb]
    exact hwf

/-- Settles O57: a taken byte appends itself to the frame and adds itself to `acc`, a command discards the frame, and a frame is held
only after its checksum was tested. -/
theorem stepKeepsChecksumInv : Obligations.StepKeepsChecksumInv := by
  intro sync s t hinv h ht hr hw
  have hsync : (busElements s.arch (CycleIn.ofWord s.nextWord)).sync = sync := by
    rw [busElements_eq s.arch hr, hw]
    exact h.syncIs
  obtain ⟨hr', -⟩ | ⟨-, htaken, he⟩ | ⟨-, -, he⟩ := step_cases ht
  · exact absurd hr' (by simp [hr])
  · exact streamEffect_checksumInv hinv h (busElements_sameParser_of_taken hr htaken) hsync he
  · rw [he]
    exact busElements_checksumInv h hr hsync

/-- Settles O28: an untaken or dropped byte changes no element, and a taken one collects before a frame may be judged. -/
theorem byteFrame : Obligations.ByteFrame := by
  intro s t d h
  obtain ⟨-, rfl⟩ | ⟨-, -, a, ha, rfl⟩ := execSByte_cases h
  · simp
  · obtain ⟨hen, hsync, hready, hrej, hfb⟩ := streamEffect_frame ha
    refine ⟨rfl, rfl, rfl, rfl, rfl, rfl, rfl, rfl, hen, hsync, hready, hrej, fun hacc => ?_, fun hr => ?_, fun j hj => ?_⟩
    · simpa [hacc] using streamEffect_rx ha
    · simpa [hr] using streamEffect_rej ha
    · simp only [State.atEdge_next, hfb]
      split
      · rw [fbRead_write, if_neg fun h => hj ⟨‹_›, h⟩]
      · rfl

/-- Settles O39: only a command leaves HOLD, only an accepted frame enters it. -/
theorem readyFlagRule : Obligations.ReadyFlagRule := by
  intro s t h
  obtain ⟨hr, he⟩ | ⟨hr, htaken, he⟩ | ⟨hr, hno, he⟩ := step_cases h
  · simp [he, resetElements, hr, byteTaken_of_rst]
  · have hst : s.arch.st ≠ .hold := by simpa using (Bool.and_eq_true_iff.1 htaken.1).2
    have hn := (busElements_sameParser_of_taken hr htaken).st_eq
    simp [streamEffect_hold_iff he (hn ▸ hst), hst, htaken]
  · have hnone : ¬(byteTaken (CycleIn.ofWord s.nextWord) s.arch = true ∧ abortsNow (CycleIn.ofWord s.nextWord) s.arch = false ∧
        acceptsNow (CycleIn.ofWord s.nextWord).inData s.arch = true) := fun h => hno ⟨h.1, h.2.1⟩
    simp only [hnone, or_false, he, busElements_hold_iff hr, hr, true_and]

/-- Settles O40: no bus operation writes FB, and a taken byte writes it in PAY only. -/
theorem onlyPayloadBytesWriteFb : Obligations.OnlyPayloadBytesWriteFb := by
  intro s t h j
  obtain ⟨hr, he⟩ | ⟨-, htaken, he⟩ | ⟨-, hno, he⟩ := step_cases h
  · simp [he, resetElements, byteTaken_of_rst _ hr]
  · obtain ⟨-, -, -, -, hfb⟩ := streamEffect_frame he
    by_cases hst : s.arch.st = .pay <;> simp [hfb, hst, fbRead_write, htaken]
  · rw [he, busElements_fb]
    exact (if_neg fun h => hno ⟨h.1, h.2.1⟩).symm

/-- Settles O41: no bus operation writes RX_INFO or RX_CSUM, and a taken byte writes them by ACCEPT only. -/
theorem headerRegistersRule : Obligations.HeaderRegistersRule := by
  intro s t h
  obtain ⟨hr, he⟩ | ⟨hr, htaken, he⟩ | ⟨hr, hno, he⟩ := step_cases h
  · simp [he, resetElements, hr]
  · simp only [streamEffect_rx he, busElements_rx, htaken, hr, completedFlags]
    simp
  · simp only [he, busElements_rx, hr]
    exact (if_neg fun h => hno ⟨h.1, h.2.1⟩).symm

/-- Settles O42: a register write changes its own register, and no taken byte changes one of these. -/
theorem controlRegistersRule : Obligations.ControlRegistersRule := by
  intro s t h
  have hbus (hr : (CycleIn.ofWord s.nextWord).rst = false) :=
    congrArg (fun n => (n.en, n.sync, n.ieReady, n.ieRej)) (busElements_eq s.arch hr)
  obtain ⟨hr, he⟩ | ⟨hr, -, he⟩ | ⟨hr, -, he⟩ := step_cases h
  · simp [he, resetElements, hr]
  · obtain ⟨hen, hsync, hready, hrej, -⟩ := streamEffect_frame he
    simp only [hen, hsync, hready, hrej, hr]
    exact hbus hr
  · simp only [he, hr]
    exact hbus hr

/-- Settles O46: the outputs are a function of the elements a host can read. -/
theorem hiddenStateIsNotReadable : Obligations.HiddenStateIsNotReadable := by
  intro s s' t t' _ hw ha h h'
  obtain ⟨n, -, rfl⟩ := step_eq_next.1 h
  obtain ⟨n', -, rfl⟩ := step_eq_next.1 h'
  change cycleOutputs s'.arch (CycleIn.ofWord s'.nextWord) = cycleOutputs s.arch (CycleIn.ofWord s.nextWord)
  rw [hw, ha]
  rfl

/-- Settles O10: after a reset edge the parser searches with an empty window, and no byte is written. -/
theorem resetMeetsInvariants : Obligations.ResetMeetsInvariants :=
  ⟨.of_hunt_empty rfl rfl rfl, .of_hunt rfl rfl, ⟨rfl, rfl⟩, rfl⟩

/-- Settles O14: RESET is `resetElements` over its idle outputs. -/
theorem resetCompletes : Obligations.ResetCompletes := fun _ => rfl

/-- Settles O27: a byte is refused by no rule, and its effect is defined but for those two states. -/
theorem byteStopsOnlyWhereNoRunReaches : Obligations.ByteStopsOnlyWhereNoRunReaches := by
  intro s d
  refine ⟨fun f => ?_, execSByte_ne_refused d s⟩
  change execSByte d s = .fault f ↔ _
  rw [execSByte_eq_fault_iff, streamEffect_eq_error_iff]
  cases hst : s.arch.st <;> simp [inReady, hst, and_assoc]

end Sys2Proof.Machine
end

