-- ==== Sys2Proof/Proofs/BusOperations.lean ====
section
/-! SUPPORT. The bus operations one by one (42_bus.md rules R200 to R221): what each leaves, and that a read leaves no trace in the
elements. -/

namespace Sys2Proof.Machine

/-- What a bus operation can answer in `s`: a reply, an error response, or the write of a register that has an effect. -/
inductive BusAnswer (s : State) : Instr → State → Prop where
  | reply (i : Instr) (v : Word) : BusAnswer s i (s.busReply v)
  | error (i : Instr) (a : BusAddr) : BusAnswer s i (s.raiseBusError a)
  | wrCtrl (wd : Word) : BusAnswer s (.wrCtrl wd) ((s.busReply 0#32).atEdge fun n => { n with en := wdEn wd })
  | wrCmd (wd : Word) :
    BusAnswer s (.wrCmd wd) (((s.busReply 0#32).driveAbort (abortEffective wd s.arch)).atEdge fun n =>
      if (releaseEffective wd s.arch || abortEffective wd s.arch) = true then backToHunt n else n)
  | wrStatus (wd : Word) :
    BusAnswer s (.wrStatus wd) ((s.busReply 0#32).atEdge fun n => { n with rej := s.arch.rej && !wdClearRej wd })
  | wrSync (wd : Word) : BusAnswer s (.wrSync wd) ((s.busReply 0#32).atEdge fun n => { n with sync := wd })
  | wrIrqEn (wd : Word) :
    BusAnswer s (.wrIrqEn wd) ((s.busReply 0#32).atEdge fun n => { n with ieReady := wdReadyIe wd, ieRej := wdRejIe wd })

/-- Everything a bus operation can do, whether or not a word decodes to its operands. -/
theorem exec_busAnswer {i : Instr} {s t : State} (hi : i.format = .b) (h : exec i s = .next t) : BusAnswer s i t := by
  cases i with
  | reset | sIdle | sByte => cases hi
  | wrFb | rdMisaligned | wrMisaligned => cases h; exact .error _ _
  | wrCtrl wd => cases h; exact .wrCtrl wd
  | wrCmd wd =>
    have hcmd := BusAnswer.wrCmd (s := s) wd
    simp only [exec, execWrCmd] at h
    cases hc : releaseEffective wd s.arch || abortEffective wd s.arch
    all_goals
      rw [hc] at h hcmd
      cases h
      exact hcmd
  | wrStatus wd => cases h; exact .wrStatus wd
  | wrSync wd => cases h; exact .wrSync wd
  | wrIrqEn wd => cases h; exact .wrIrqEn wd
  | _ => cases h; exact .reply _ _

section Read

variable {i : CycleIn}

/-- A bus operation that is no write leaves every element (R200, R201). -/
theorem busElements_of_not_write (a : Arch) (h : ¬(i.busEn = true ∧ i.busWe = true)) : busElements a i = a := by
  rw [busElements, decodeBusEffect_effect, if_neg h]
  rfl

/-- Only a write aborts (R212). -/
theorem abortsNow_of_not_write (a : Arch) (h : ¬(i.busEn = true ∧ i.busWe = true)) : abortsNow i a = false := by
  rw [Bool.eq_false_iff]
  intro habort
  simp only [abortsNow, Bool.and_eq_true] at habort
  obtain ⟨⟨⟨⟨⟨-, hen⟩, hwe⟩, -⟩, -⟩, -⟩ := habort
  exact h ⟨hen, hwe⟩

/-- Without a write, a cycle is its reset or its taken byte alone. -/
theorem cycleElements_of_not_write (p : Params) (a : Arch) (h : ¬(i.busEn = true ∧ i.busWe = true)) :
    cycleElements p a i =
      if i.rst then .ok (resetElements p a) else if byteTaken i a then streamEffect i.inData a a else .ok a := by
  simp only [cycleElements, busElements_of_not_write a h, abortsNow_of_not_write a h, Bool.not_false, Bool.and_true]

/-- A read leaves what the same cycle with the bus idle leaves (R78, R201). -/
theorem cycleElements_busIdle (p : Params) (a : Arch) (hw : i.busWe = false) :
    cycleElements p a { i with busEn := false } = cycleElements p a i := by
  rw [cycleElements_of_not_write p a (by simp), cycleElements_of_not_write p a (by simp [hw])]
  rfl

end Read

end Sys2Proof.Machine
end

