-- ==== Sys2Proof/Proofs/HeldFrame.lean ====
section
/-! SUPPORT. Runs over given words, one cycle at a time (00_scope.md rule R9), and what a run does to a held frame (41_stream.md rule
R175). -/

namespace Sys2Proof.Machine

/-! ## Runs -/

@[simp] theorem runWords_nil (s : State) : runWords [] s = .next (s.withInputs []) := rfl

/-- A step uses up the first of the placed words. -/
theorem step_withInputs_cons_inputs {w : CycleWord} {ws : List CycleWord} {s u : State}
    (h : step (s.withInputs (w :: ws)) = .next u) : u.inputs = ws := by
  obtain ⟨n, -, rfl⟩ := step_eq_next.1 h
  rfl

/-- A run is its first cycle, then the run over the other words. -/
theorem runWords_cons {w : CycleWord} {ws : List CycleWord} {s u : State} (h : step (s.withInputs (w :: ws)) = .next u) :
    runWords (w :: ws) s = runWords ws u := by
  have hu : u.withInputs ws = u := by rw [← step_withInputs_cons_inputs h]; rfl
  rw [runWords, List.length_cons, core_run_succ _ h, runWords, hu]

/-! ## A held frame -/

theorem SameParser.refl (a : Arch) : SameParser a a := rfl

theorem SameParser.trans {a b c : Arch} (hab : SameParser a b) (hbc : SameParser b c) : SameParser a c := by
  rw [SameParser] at hab hbc ⊢
  rw [hbc, hab]

/-- A RELEASE is a CMD write with bit 0 set (R212). -/
theorem releasesNow_of_not_cmdBit0 {i : CycleIn} (a : Arch)
    (h : ¬(writesReg i 0x10004#17 = true ∧ i.busWdata.getLsbD 0 = true)) : releasesNow i a = false := by
  rw [Bool.eq_false_iff]
  intro hrel
  obtain ⟨⟨hw, hbit⟩, -⟩ := by simpa only [releasesNow, Bool.and_eq_true] using hrel
  exact h ⟨by simpa only [writesReg, Bool.and_eq_true] using hw, hbit⟩

/-- In HOLD no byte is taken and no ABORT takes effect, so a cycle that neither resets nor releases completes and leaves the parser
(R160, R175, R212). -/
theorem exists_step_of_hold {s : State} (hst : s.arch.st = .hold) (hr : (CycleIn.ofWord s.nextWord).rst = false)
    (hrel : releasesNow (CycleIn.ofWord s.nextWord) s.arch = false) : ∃ t, step s = .next t ∧ SameParser s.arch t.arch := by
  have htaken : byteTaken (CycleIn.ofWord s.nextWord) s.arch = false := by simp [byteTaken, hst]
  have habort : abortsNow (CycleIn.ofWord s.nextWord) s.arch = false := by simp [abortsNow, hst]
  have he : cycleElements s.params s.arch (CycleIn.ofWord s.nextWord) = .ok (busElements s.arch (CycleIn.ofWord s.nextWord)) := by
    simp [cycleElements, hr, htaken]
  exact ⟨_, step_eq_next.2 ⟨_, he, rfl⟩, busElements_sameParser hr hrel habort⟩

/-- A run without reset and RELEASE completes from HOLD and leaves the parser, hence the held frame. -/
theorem exists_runWords_of_hold (ws : List CycleWord) (s : State) (hst : s.arch.st = .hold)
    (hws : ∀ w ∈ ws, (CycleIn.ofWord w).rst = false ∧
      ¬(writesReg (CycleIn.ofWord w) 0x10004#17 = true ∧ (CycleIn.ofWord w).busWdata.getLsbD 0 = true)) :
    ∃ t, runWords ws s = .next t ∧ SameParser s.arch t.arch := by
  induction ws generalizing s with
  | nil => exact ⟨_, runWords_nil s, .refl s.arch⟩
  | cons w ws ih =>
    obtain ⟨⟨hr, hrel⟩, hrest⟩ := List.forall_mem_cons.1 hws
    obtain ⟨u, hu, hsame⟩ := exists_step_of_hold (s := s.withInputs (w :: ws)) hst hr (releasesNow_of_not_cmdBit0 _ hrel)
    obtain ⟨t, ht, htail⟩ := ih u (hsame.st_eq.trans hst) hrest
    exact ⟨t, (runWords_cons hu).trans ht, hsame.trans htail⟩

end Sys2Proof.Machine
end

