-- ==== Sys2Proof/Proofs/Memory.lean ====
section
/-! The statements of the memory family (20_memory.md rules R70 to R81). -/

namespace Sys2Proof.Machine

/-- Settles O29: a reply and an error response leave the elements, and a register write changes its own register only. -/
theorem busOperationFrame : Obligations.BusOperationFrame := by
  intro s t i hi h
  cases exec_busAnswer hi h with
  | wrCmd wd => cases releaseEffective wd s.arch || abortEffective wd s.arch <;> simp [backToHunt]
  | _ => simp

/-- Settles O34: without a write a cycle does not depend on `bus_en`. -/
theorem readsHaveNoSideEffect : Obligations.ReadsHaveNoSideEffect := by
  intro s s' t t' ha hp hw hi h h'
  obtain ⟨n, hn, rfl⟩ := step_eq_next.1 h
  obtain ⟨n', hn', rfl⟩ := step_eq_next.1 h'
  rw [ha, hp, hi, cycleElements_busIdle _ _ hw, hn] at hn'
  exact Except.ok.inj hn'

/-- Settles O44: by induction on the words, since a cycle from HOLD leaves the parser unless it resets or releases. -/
theorem heldFrameStays : Obligations.HeldFrameStays := by
  intro ws s hst hws
  obtain ⟨t, ht, hsame⟩ := exists_runWords_of_hold ws s hst hws
  exact ⟨t, ht, hsame.st_eq.trans hst, (congrArg Arch.fb hsame :), (congrArg Arch.rxLen hsame :), (congrArg Arch.rxId hsame :),
    (congrArg Arch.rxFlags hsame :), (congrArg Arch.rxCsum hsame :)⟩

end Sys2Proof.Machine
end

