-- ==== Sys2Proof/Proofs/AddressClasses.lean ====
section
/-! SUPPORT. The classes of a bus address (20_memory.md rules R70 and R75): a register, the FB window, reserved, misaligned. The rows
of format B choose among them in the same way for reads and writes (30_encoding.md rule R106). -/

namespace Sys2Proof.Machine

/-- The read of a register (R106). -/
def RegName.readOp : RegName → Instr
  | .ctrl => .rdCtrl
  | .cmd => .rdCmd
  | .status => .rdStatus
  | .sync => .rdSync
  | .rxInfo => .rdRxInfo
  | .rxCsum => .rdRxCsum
  | .irqEn => .rdIrqEn

/-- The write of a register (R106). -/
def RegName.writeOp (wd : Word) : RegName → Instr
  | .ctrl => .wrCtrl wd
  | .cmd => .wrCmd wd
  | .status => .wrStatus wd
  | .sync => .wrSync wd
  | .rxInfo => .wrRxInfo wd
  | .rxCsum => .wrRxCsum wd
  | .irqEn => .wrIrqEn wd

/-- The choice the decoder makes by address, whatever it chooses among (R106). -/
def selectByAddr {α : Type} (reg : RegName → α) (fb rsvd misaligned : α) (a : BusAddr) : α :=
  if a = RegName.busAddr .ctrl then reg .ctrl
  else if a = RegName.busAddr .cmd then reg .cmd
  else if a = RegName.busAddr .status then reg .status
  else if a = RegName.busAddr .sync then reg .sync
  else if a = RegName.busAddr .rxInfo then reg .rxInfo
  else if a = RegName.busAddr .rxCsum then reg .rxCsum
  else if a = RegName.busAddr .irqEn then reg .irqEn
  else if !addrInRegisters a && addrAligned a then fb
  else if addrInRegisters a && addrAligned a then rsvd
  else misaligned

theorem decodeRead_eq_selectByAddr (a : BusAddr) :
    decodeRead a = selectByAddr RegName.readOp (.rdFb a) (.rdRsvd a) (.rdMisaligned a) a := rfl

theorem decodeWrite_eq_selectByAddr (a : BusAddr) (wd : Word) :
    decodeWrite a wd = selectByAddr (RegName.writeOp wd) (.wrFb a wd) (.wrRsvd a wd) (.wrMisaligned a wd) a := rfl

section Select

variable {α β : Type} {reg : RegName → α} {fb rsvd misaligned : α} {a : BusAddr}

theorem apply_selectByAddr (f : α → β) :
    f (selectByAddr reg fb rsvd misaligned a) = selectByAddr (fun r => f (reg r)) (f fb) (f rsvd) (f misaligned) a := by
  simp only [selectByAddr, apply_ite f]

theorem selectByAddr_register (r : RegName) : selectByAddr reg fb rsvd misaligned r.busAddr = reg r := by
  cases r <;> rfl

theorem RegName.busAddr_aligned (r : RegName) : r.busAddr.toNat % 4 = 0 := by cases r <;> rfl

theorem RegName.busAddr_range (r : RegName) : 0x10000 ≤ r.busAddr.toNat ∧ r.busAddr.toNat < 0x1001C := by
  cases r <;> decide

/-- Outside the registers the class is told by bit 16 and bits 1:0. -/
theorem selectByAddr_of_not_register (h : ∀ r : RegName, a ≠ r.busAddr) :
    selectByAddr reg fb rsvd misaligned a =
      if !addrInRegisters a && addrAligned a then fb else if addrInRegisters a && addrAligned a then rsvd else misaligned := by
  rw [selectByAddr, if_neg (h .ctrl), if_neg (h .cmd), if_neg (h .status), if_neg (h .sync), if_neg (h .rxInfo), if_neg (h .rxCsum),
    if_neg (h .irqEn)]

theorem selectByAddr_fb (h : wfFbAddr a = true) : selectByAddr reg fb rsvd misaligned a = fb := by
  obtain ⟨h4, hlt⟩ : a.toNat % 4 = 0 ∧ a.toNat < 0x10000 := by simpa [wfFbAddr] using h
  have hreg : addrInRegisters a = false := by rw [Bool.eq_false_iff, ne_eq, addrInRegisters_iff]; omega
  rw [selectByAddr_of_not_register (by rintro r rfl; have := r.busAddr_range; omega), hreg, (addrAligned_iff a).2 h4]
  rfl

theorem selectByAddr_rsvd (h : wfRsvdAddr a = true) : selectByAddr reg fb rsvd misaligned a = rsvd := by
  obtain ⟨h4, hle⟩ : a.toNat % 4 = 0 ∧ 0x1001C ≤ a.toNat := by simpa [wfRsvdAddr] using h
  rw [selectByAddr_of_not_register (by rintro r rfl; have := r.busAddr_range; omega), (addrInRegisters_iff a).2 (by omega),
    (addrAligned_iff a).2 h4]
  rfl

theorem selectByAddr_misaligned (h : wfMisalignedAddr a = true) : selectByAddr reg fb rsvd misaligned a = misaligned := by
  have h4 : a.toNat % 4 ≠ 0 := by simpa [wfMisalignedAddr] using h
  have hal : addrAligned a = false := by rwa [Bool.eq_false_iff, ne_eq, addrAligned_iff]
  rw [selectByAddr_of_not_register (by rintro r rfl; exact h4 r.busAddr_aligned), hal]
  simp

/-- The aligned addresses below `0x1001C` and not below `0x10000` are the seven registers (R70). -/
theorem exists_register (h4 : a.toNat % 4 = 0) (hge : 0x10000 ≤ a.toNat) (hlt : a.toNat < 0x1001C) :
    ∃ r : RegName, a = r.busAddr := by
  obtain ⟨k, hk, ha⟩ : ∃ k, k < 7 ∧ a.toNat = 0x10000 + 4 * k := ⟨(a.toNat - 0x10000) / 4, by omega, by omega⟩
  obtain rfl : a = BitVec.ofNat 17 (0x10000 + 4 * k) := by rw [← ha, BitVec.ofNat_toNat, BitVec.setWidth_eq]
  interval_cases k
  · exact ⟨.ctrl, rfl⟩
  · exact ⟨.cmd, rfl⟩
  · exact ⟨.status, rfl⟩
  · exact ⟨.sync, rfl⟩
  · exact ⟨.rxInfo, rfl⟩
  · exact ⟨.rxCsum, rfl⟩
  · exact ⟨.irqEn, rfl⟩

/-- Every address is of one of the four classes (R70, R75). -/
theorem busAddr_cases (a : BusAddr) :
    (∃ r : RegName, a = r.busAddr) ∨ wfFbAddr a = true ∨ wfRsvdAddr a = true ∨ wfMisalignedAddr a = true := by
  by_cases h4 : a.toNat % 4 = 0
  · by_cases hlt : a.toNat < 0x10000
    · simp [wfFbAddr, h4, hlt]
    · by_cases hr : a.toNat < 0x1001C
      · exact .inl (exists_register h4 (by omega) hr)
      · simp [wfRsvdAddr, h4, Nat.not_lt.1 hr]
  · simp [wfMisalignedAddr, h4]

/-- What holds of the choice for each class holds of the choice. -/
theorem selectByAddr_induction {P : α → Prop} (hreg : ∀ r : RegName, a = r.busAddr → P (reg r)) (hfb : wfFbAddr a = true → P fb)
    (hrsvd : wfRsvdAddr a = true → P rsvd) (hmis : wfMisalignedAddr a = true → P misaligned) :
    P (selectByAddr reg fb rsvd misaligned a) := by
  obtain ⟨r, rfl⟩ | h | h | h := busAddr_cases a
  · rw [selectByAddr_register]; exact hreg r rfl
  · rw [selectByAddr_fb h]; exact hfb h
  · rw [selectByAddr_rsvd h]; exact hrsvd h
  · rw [selectByAddr_misaligned h]; exact hmis h

end Select

/-! ## What the bus decoder gives -/

/-- An operation of format B that exists and whose own inputs are the given ones. -/
structure IsBusRequest (c : CycleIn) (i : Instr) : Prop where
  format : i.format = .b
  wf : i.wf = true
  inputs : i.inputs = c

theorem decodeRead_isBusRequest (a : BusAddr) : IsBusRequest (readInputs a) (decodeRead a) := by
  rw [decodeRead_eq_selectByAddr]
  refine selectByAddr_induction (fun r ha => ?_) (fun h => ⟨rfl, h, rfl⟩) (fun h => ⟨rfl, h, rfl⟩) (fun h => ⟨rfl, h, rfl⟩)
  subst ha
  cases r <;> exact ⟨rfl, rfl, rfl⟩

theorem decodeWrite_isBusRequest (a : BusAddr) (wd : Word) : IsBusRequest (writeInputs a wd) (decodeWrite a wd) := by
  rw [decodeWrite_eq_selectByAddr]
  refine selectByAddr_induction (fun r ha => ?_) (fun h => ⟨rfl, h, rfl⟩) (fun h => ⟨rfl, h, rfl⟩) (fun h => ⟨rfl, h, rfl⟩)
  subst ha
  cases r <;> exact ⟨rfl, rfl, rfl⟩

theorem decodeBus_format_wf (c : CycleIn) : (decodeBus c).format = .b ∧ (decodeBus c).wf = true := by
  rw [decodeBus]
  split_ifs
  · exact ⟨rfl, rfl⟩
  · exact ⟨(decodeWrite_isBusRequest _ _).format, (decodeWrite_isBusRequest _ _).wf⟩
  · exact ⟨(decodeRead_isBusRequest _).format, (decodeRead_isBusRequest _).wf⟩

end Sys2Proof.Machine
end

