-- ==== Sys2Proof/Proofs/CycleDecoding.lean ====
section
/-! SUPPORT. The decoder on a cycle's operations (30_encoding.md rules R100, R106, R111): each channel's operation is read back from the
inputs the other channel is added to. -/

namespace Sys2Proof.Machine

/-! ## The cycles that exist -/

theorem cycleWf_pair_iff (b s : Instr) :
    cycleWf [b, s] = true ↔ (b.format = .b ∧ b.wf = true) ∧ s.format = .s ∧ s.wf = true := by
  simp [cycleWf, and_assoc]

/-- A cycle is RESET alone, or one bus and one stream operation (R100). -/
theorem cycleWf_cases {ops : List Instr} (h : cycleWf ops = true) :
    ops = [.reset] ∨ ∃ b s, ops = [b, s] ∧ (b.format = .b ∧ b.wf = true) ∧ s.format = .s := by
  match ops with
  | [] => cases h
  | [i] =>
    cases i with
    | reset => exact .inl rfl
    | _ => cases h
  | [b, s] =>
    obtain ⟨hb, hs, -⟩ := (cycleWf_pair_iff b s).1 h
    exact .inr ⟨b, s, rfl, hb, hs⟩
  | _ :: _ :: _ :: _ => cases h

/-- The stream operations are S_IDLE and S_BYTE (R103). -/
theorem format_s_cases {s : Instr} (h : s.format = .s) : s = .sIdle ∨ ∃ d, s = .sByte d := by
  cases s with
  | sIdle => exact .inl rfl
  | sByte d => exact .inr ⟨d, rfl⟩
  | _ => cases h

theorem decodeStream_format_wf (c : CycleIn) : (decodeStream c).format = .s ∧ (decodeStream c).wf = true := by
  rw [decodeStream]
  split_ifs <;> exact ⟨rfl, rfl⟩

/-! ## Decoding undoes encoding -/

/-- An operation of format B is read from its own inputs: its address operand is in the class its row asks for (R106). -/
theorem decodeBus_inputs {b : Instr} (hf : b.format = .b) (hwf : b.wf = true) : decodeBus b.inputs = b := by
  cases b with
  | reset | sIdle | sByte _ => cases hf
  | rdFb a => exact (decodeRead_eq_selectByAddr a).trans (selectByAddr_fb hwf)
  | wrFb a wd => exact (decodeWrite_eq_selectByAddr a wd).trans (selectByAddr_fb hwf)
  | rdRsvd a => exact (decodeRead_eq_selectByAddr a).trans (selectByAddr_rsvd hwf)
  | wrRsvd a wd => exact (decodeWrite_eq_selectByAddr a wd).trans (selectByAddr_rsvd hwf)
  | rdMisaligned a => exact (decodeRead_eq_selectByAddr a).trans (selectByAddr_misaligned hwf)
  | wrMisaligned a wd => exact (decodeWrite_eq_selectByAddr a wd).trans (selectByAddr_misaligned hwf)
  | _ => rfl

/-- An operation of format B drives no input of the other channels. -/
theorem inputs_of_format_b {b : Instr} (hf : b.format = .b) :
    b.inputs.rst = false ∧ b.inputs.inValid = false ∧ b.inputs.inData = 0 := by
  cases b with
  | reset | sIdle | sByte _ => cases hf
  | _ => exact ⟨rfl, rfl, rfl⟩

/-- Adding a stream operation to inputs that drive only the bus leaves the bus operation. -/
theorem decodeInputs_or_stream {c : CycleIn} {s : Instr} (hr : c.rst = false) (hv : c.inValid = false) (hd : c.inData = 0)
    (hs : s.format = .s) : decodeInputs (c.or s.inputs) = [decodeBus c, s] := by
  obtain rfl | ⟨d, rfl⟩ := format_s_cases hs <;>
    simp [decodeInputs, decodeBus, decodeStream, CycleIn.or, Instr.inputs, CycleIn.idle, hr, hv, hd]

theorem ofWord_encodeCycle_pair (b s : Instr) : CycleIn.ofWord (encodeCycle [b, s]) = b.inputs.or s.inputs := by
  simp only [encodeCycle, List.foldr_cons, List.foldr_nil, CycleIn.ofWord_or, ofWord_encode, CycleIn.ofWord_zero, CycleIn.or_idle]

theorem decodeCycle_encodeCycle_pair {b s : Instr} (hb : b.format = .b) (hwf : b.wf = true) (hs : s.format = .s) :
    decodeCycle (encodeCycle [b, s]) = [b, s] := by
  obtain ⟨hr, hv, hd⟩ := inputs_of_format_b hb
  rw [decodeCycle, ofWord_encodeCycle_pair, decodeInputs_or_stream hr hv hd hs, decodeBus_inputs hb hwf]

/-! ## The words of R111 -/

section Field

variable {n : Nat} (x : BitVec n) {j k m : Nat}

/-- A field shifted to its place is found there. -/
theorem extractLsb'_shifted_same (h : k + n ≤ 61) : (x.setWidth 61 <<< k).extractLsb' k n = x := by
  ext i hi
  simp only [BitVec.getElem_extractLsb', BitVec.getLsbD_shiftLeft, BitVec.getLsbD_setWidth, Nat.add_sub_cancel_left]
  rw [← BitVec.getLsbD_eq_getElem hi]
  simp [show k + i < 61 by omega, show i < 61 by omega]

/-- A field shifted to its place does not reach the fields below and above. -/
theorem extractLsb'_shifted_disjoint (h : j + m ≤ k ∨ k + n ≤ j) : (x.setWidth 61 <<< k).extractLsb' j m = 0 := by
  ext i hi
  simp only [BitVec.getElem_extractLsb', BitVec.getLsbD_shiftLeft, BitVec.getLsbD_setWidth]
  obtain h | h := h
  · simp [show j + i < k by omega]
  · simp [BitVec.getLsbD_of_ge x (j + i - k) (by omega)]

end Field

theorem ofWord_shifted_data (b : Byte) : CycleIn.ofWord (b.setWidth 61 <<< 51) = { CycleIn.idle with inData := b } := by
  simp [CycleIn.ofWord, CycleIn.idle, extractLsb'_shifted_same, extractLsb'_shifted_disjoint]

theorem ofWord_shifted_addr (a : BusAddr) : CycleIn.ofWord (a.setWidth 61 <<< 32) = { CycleIn.idle with busAddr := a } := by
  simp [CycleIn.ofWord, CycleIn.idle, extractLsb'_shifted_same, extractLsb'_shifted_disjoint]

theorem ofWord_wdata (v : Word) : CycleIn.ofWord (v.setWidth 61) = { CycleIn.idle with busWdata := v } := by
  rw [← BitVec.shiftLeft_zero (v.setWidth 61)]
  simp only [CycleIn.ofWord, CycleIn.idle, extractLsb'_shifted_same, extractLsb'_shifted_disjoint, Nat.reduceAdd,
    Nat.reduceLeDiff, or_true]
  simp

/-- `BYTE b` contributes the word of S_BYTE. -/
theorem byteBits_eq_encode (b : Byte) : byteBits b = encode (.sByte b) := by
  have hv : CycleIn.ofWord (1#61 <<< 59) = { CycleIn.idle with inValid := true } := by decide
  rw [← CycleIn.ofWord_inj, ofWord_encode, byteBits, CycleIn.ofWord_or, hv, ofWord_shifted_data]
  simp [CycleIn.or, CycleIn.idle, Instr.inputs]

/-- The operation `RD x` or `WR x, v` stands for: the one of its address (R109, R106). -/
def BusLine.op : BusLine → Instr
  | .rd l => decodeRead l.busAddr
  | .wr l v => decodeWrite l.busAddr v

theorem BusLine.op_format_wf (x : BusLine) : x.op.format = .b ∧ x.op.wf = true := by
  cases x with
  | rd l => exact ⟨(decodeRead_isBusRequest _).format, (decodeRead_isBusRequest _).wf⟩
  | wr l v => exact ⟨(decodeWrite_isBusRequest _ _).format, (decodeWrite_isBusRequest _ _).wf⟩

/-- `RD x` and `WR x, v` contribute the word of their operation. -/
theorem BusLine.bits_eq_encode (x : BusLine) : x.bits = encode x.op := by
  have he : CycleIn.ofWord (1#61 <<< 50) = { CycleIn.idle with busEn := true } := by decide
  have hw : CycleIn.ofWord (1#61 <<< 49) = { CycleIn.idle with busWe := true } := by decide
  rw [← CycleIn.ofWord_inj, ofWord_encode]
  cases x with
  | rd l =>
    rw [BusLine.op, (decodeRead_isBusRequest _).inputs, BusLine.bits, CycleIn.ofWord_or, he, ofWord_shifted_addr]
    simp [CycleIn.or, CycleIn.idle, readInputs]
  | wr l v =>
    simp only [BusLine.op, (decodeWrite_isBusRequest _ _).inputs, BusLine.bits, CycleIn.ofWord_or, he, hw, ofWord_shifted_addr,
      ofWord_wdata]
    simp [CycleIn.or, CycleIn.idle, writeInputs]

/-- The word of a bus operation and a stream operation, written in the order of R111. -/
theorem decodeCycle_encode_or_encode {b s : Instr} (hb : b.format = .b ∧ b.wf = true) (hs : s.format = .s) :
    decodeCycle (encode s ||| encode b) = [b, s] := by
  rw [BitVec.or_comm, ← decodeCycle_encodeCycle_pair hb.1 hb.2 hs, encodeCycle, List.foldr_cons, List.foldr_cons, List.foldr_nil,
    show encode s ||| 0 = encode s from BitVec.or_zero]

theorem decodeCycle_byteBits (b : Byte) : decodeCycle (byteBits b) = [.bIdle, .sByte b] := by
  rw [← decodeCycle_encode_or_encode ⟨rfl, rfl⟩ rfl, byteBits_eq_encode, show encode .bIdle = 0#61 by decide, BitVec.or_zero]

theorem decodeCycle_busLine_bits (x : BusLine) : decodeCycle x.bits = [x.op, .sIdle] := by
  rw [← decodeCycle_encode_or_encode x.op_format_wf rfl, x.bits_eq_encode, show encode .sIdle = 0#61 by decide, BitVec.zero_or]

theorem decodeCycle_byteBits_or_bits (b : Byte) (x : BusLine) : decodeCycle (byteBits b ||| x.bits) = [x.op, .sByte b] := by
  rw [← decodeCycle_encode_or_encode x.op_format_wf rfl, byteBits_eq_encode, x.bits_eq_encode]

end Sys2Proof.Machine
end

