-- ==== Sys2Proof/Proofs/OpcodeRows.lean ====
section
/-! SUPPORT. The rows of spec/opcode_table.json read as tests of a cycle's inputs (30_encoding.md rules R102 to R106): the rows of
format B come in pairs, a read and a write of the same addresses. -/

namespace Sys2Proof.Machine

/-! ## A row and a list of rows -/

/-- The row whose mask and pattern are the words of given inputs. -/
def inputsRow (mnemonic : String) (mask pattern : CycleIn) : OpcodeRow := ⟨mnemonic, mask.toWord, pattern.toWord⟩

theorem inputsRow_matches_iff (n : String) (m p : CycleIn) (c : CycleWord) :
    (inputsRow n m p).matches c = true ↔ maskInputs (CycleIn.ofWord c) m = p := by
  rw [OpcodeRow.matches_iff, inputsRow, CycleIn.ofWord_toWord, CycleIn.ofWord_toWord]

theorem firstRow_cons (r : OpcodeRow) (rs : List OpcodeRow) (c : CycleWord) :
    firstRow (r :: rs) c = if r.matches c = true then some r.mnemonic else firstRow rs c := by
  rw [firstRow, List.find?_cons]
  cases r.matches c <;> rfl

/-! ## The rows of format B -/

/-- A row that tests `e = 1`, `w` and some bits of the address. -/
def busRow (mnemonic : String) (w : Bool) (addrMask addrBits : BusAddr) : OpcodeRow :=
  inputsRow mnemonic { CycleIn.idle with busEn := true, busWe := true, busAddr := addrMask }
    { CycleIn.idle with busEn := true, busWe := w, busAddr := addrBits }

theorem busRow_matches_iff (n : String) (w : Bool) (m p : BusAddr) (c : CycleWord) :
    (busRow n w m p).matches c = true ↔
      (CycleIn.ofWord c).busEn = true ∧ (CycleIn.ofWord c).busWe = w ∧ (CycleIn.ofWord c).busAddr &&& m = p := by
  simp [busRow, inputsRow_matches_iff, maskInputs, CycleIn.idle]

/-- The read row and the write row of the same addresses. -/
def busRowPair (read write : String) (addrMask addrBits : BusAddr) : List OpcodeRow :=
  [busRow read false addrMask addrBits, busRow write true addrMask addrBits]

theorem firstRow_busRowPair {c : CycleWord} (he : (CycleIn.ofWord c).busEn = true) (r w : String) (m p : BusAddr)
    (rows : List OpcodeRow) :
    firstRow (busRowPair r w m p ++ rows) c =
      if (CycleIn.ofWord c).busAddr &&& m = p then some (if (CycleIn.ofWord c).busWe then w else r) else firstRow rows c := by
  simp only [busRowPair, List.cons_append, List.nil_append, firstRow_cons, busRow_matches_iff, he, true_and]
  cases (CycleIn.ofWord c).busWe <;> simp [busRow, inputsRow]

theorem mnemonicOf_writeOp (wd : Word) (r : RegName) : mnemonicOf (r.writeOp wd) = mnemonicOf (r.writeOp 0) := by
  cases r <;> rfl

/-- The rows of a register: the write's mnemonic does not depend on the write data. -/
def registerRows (r : RegName) : List OpcodeRow :=
  busRowPair (mnemonicOf r.readOp) (mnemonicOf (r.writeOp 0)) (BitVec.allOnes 17) r.busAddr

def bIdleRow : OpcodeRow := inputsRow "B_IDLE" { CycleIn.idle with busEn := true } CycleIn.idle

/-- The rows of format B below B_IDLE, pair by pair. -/
def requestRows : List OpcodeRow :=
  registerRows .ctrl ++ (registerRows .cmd ++ (registerRows .status ++ (registerRows .sync ++ (registerRows .rxInfo ++
    (registerRows .rxCsum ++ (registerRows .irqEn ++ (busRowPair "RD_FB" "WR_FB" 0x10003 0 ++
      (busRowPair "RD_RSVD" "WR_RSVD" 0x10003 0x10000 ++ (busRowPair "RD_MISALIGNED" "WR_MISALIGNED" 0 0 ++ [])))))))))

theorem busRows_eq : busRows = bIdleRow :: requestRows := by decide

/-! ## The first row that matches -/

theorem bIdleRow_matches_iff (c : CycleWord) : bIdleRow.matches c = true ↔ (CycleIn.ofWord c).busEn = false := by
  simp [bIdleRow, inputsRow_matches_iff, maskInputs, CycleIn.idle]

/-- The bits of the FB and reserved rows: bit 16 and bits 1:0 (R104, R106). -/
theorem and_classMask_eq_iff (a : BusAddr) (b : Bool) :
    a &&& 0x10003#17 = (if b then 0x10000#17 else 0#17) ↔ addrInRegisters a = b ∧ addrAligned a = true := by
  constructor
  · intro h
    have hhigh := congrArg (BitVec.getLsbD · 16) h
    have hlow := congrArg (BitVec.extractLsb' 0 2) h
    rw [BitVec.extractLsb'_and, show (0x10003#17).extractLsb' 0 2 = BitVec.allOnes 2 from rfl, BitVec.and_allOnes] at hlow
    cases b <;> simpa [addrInRegisters, addrAligned] using And.intro hhigh hlow
  · rintro ⟨rfl, ha⟩
    simp only [Laws.TableRow.addr_class ((addrAligned_iff a).1 ha), addrInRegisters_iff]

/-- The rows below B_IDLE choose by address as the decoder does. -/
theorem firstRow_requestRows {c : CycleWord} (he : (CycleIn.ofWord c).busEn = true) :
    firstRow requestRows c = some (selectByAddr
      (fun r => if (CycleIn.ofWord c).busWe then mnemonicOf (r.writeOp 0) else mnemonicOf r.readOp)
      (if (CycleIn.ofWord c).busWe then "WR_FB" else "RD_FB") (if (CycleIn.ofWord c).busWe then "WR_RSVD" else "RD_RSVD")
      (if (CycleIn.ofWord c).busWe then "WR_MISALIGNED" else "RD_MISALIGNED") (CycleIn.ofWord c).busAddr) := by
  have hfb := and_classMask_eq_iff (CycleIn.ofWord c).busAddr false
  have hrsvd := and_classMask_eq_iff (CycleIn.ofWord c).busAddr true
  simp only [Bool.false_eq_true, if_false, if_true] at hfb hrsvd
  rw [apply_selectByAddr some]
  simp only [selectByAddr, requestRows, registerRows, firstRow_busRowPair he, BitVec.and_allOnes, BitVec.ofNat_eq_ofNat, hfb,
    hrsvd, BitVec.and_zero, if_true, Bool.and_eq_true, Bool.not_eq_true']

/-- The decoder's bus operation is the first row of format B that matches. -/
theorem firstRow_busRows (c : CycleWord) : firstRow busRows c = some (mnemonicOf (decodeBus (CycleIn.ofWord c))) := by
  simp only [busRows_eq, firstRow_cons, bIdleRow_matches_iff]
  cases he : (CycleIn.ofWord c).busEn
  · simp only [decodeBus, he, if_true, Bool.not_false]
    rfl
  · simp only [decodeBus, he, firstRow_requestRows he, Bool.not_true, Bool.false_eq_true, if_false, Bool.true_eq_false]
    cases (CycleIn.ofWord c).busWe
    · simp only [Bool.false_eq_true, if_false, decodeRead_eq_selectByAddr, apply_selectByAddr mnemonicOf]
      rfl
    · simp only [if_true, decodeWrite_eq_selectByAddr, apply_selectByAddr mnemonicOf, mnemonicOf_writeOp (CycleIn.ofWord c).busWdata]
      rfl

/-- The decoder's stream operation is the first row of format S that matches. -/
theorem firstRow_streamRows (c : CycleWord) : firstRow streamRows c = some (mnemonicOf (decodeStream (CycleIn.ofWord c))) := by
  have hrows : streamRows = [inputsRow "S_IDLE" { CycleIn.idle with inValid := true } CycleIn.idle,
    inputsRow "S_BYTE" { CycleIn.idle with inValid := true } { CycleIn.idle with inValid := true }] := by decide
  simp only [hrows, firstRow_cons, inputsRow_matches_iff, decodeStream]
  cases hv : (CycleIn.ofWord c).inValid <;> simp [maskInputs, CycleIn.idle, hv, inputsRow, mnemonicOf]

theorem firstRow_resetRows (c : CycleWord) :
    firstRow resetRows c = if (CycleIn.ofWord c).rst then some (mnemonicOf .reset) else none := by
  have hrows : resetRows = [inputsRow "RESET" { CycleIn.idle with rst := true } { CycleIn.idle with rst := true }] := by decide
  simp only [hrows, firstRow_cons, inputsRow_matches_iff]
  cases hr : (CycleIn.ofWord c).rst <;> simp [maskInputs, CycleIn.idle, hr, inputsRow, mnemonicOf, firstRow]

end Sys2Proof.Machine
end

