-- ==== Sys2Proof/Proofs/Encoding.lean ====
section
/-! The statements of the encoding family (30_encoding.md rules R100 to R111). -/

namespace Sys2Proof.Machine

/-- Settles O2: RESET alone is one word, and of a pair each channel's operation is read back from its own inputs. -/
theorem decodeEncodeCycle : Obligations.DecodeEncodeCycle := by
  intro ops h
  obtain rfl | ⟨b, s, rfl, ⟨hb, hwf⟩, hs⟩ := cycleWf_cases h
  · decide
  · exact decodeCycle_encodeCycle_pair hb hwf hs

/-- Settles O3: each channel's decoder gives an operation of its format whose address is in the range of its row. -/
theorem everyCycleWordDecodes : Obligations.EveryCycleWordDecodes := by
  intro c
  rw [decodeCycle, decodeInputs]
  split_ifs
  · rfl
  · exact (cycleWf_pair_iff _ _).2 ⟨decodeBus_format_wf _, decodeStream_format_wf _⟩

/-- Settles O4: each format's decoder gives the first row of its format that matches. -/
theorem decodeFollowsOpcodeTable : Obligations.DecodeFollowsOpcodeTable := by
  intro c
  rw [decodeCycle, decodeInputs, firstRow_resetRows, firstRow_busRows, firstRow_streamRows]
  cases (CycleIn.ofWord c).rst <;> rfl

/-- Settles O5: the word of a line is the encoding of the line's operations, which decoding gives back. -/
theorem basicLinesDecode : Obligations.BasicLinesDecode := by
  intro b l v
  exact ⟨by decide, by decide, decodeCycle_byteBits b, decodeCycle_busLine_bits (.rd l), decodeCycle_busLine_bits (.wr l v),
    decodeCycle_byteBits_or_bits b (.rd l), decodeCycle_byteBits_or_bits b (.wr l v)⟩

/-- Settles O6: the decoder of each channel looks at a field only where the field before it asks for it. -/
theorem ignoredInputsAreIgnored : Obligations.IgnoredInputsAreIgnored := by
  intro c d w a wd c'
  refine ⟨fun hv => ?_, fun he => ?_, fun hw => ?_, fun hr => ?_⟩
  · simp [decodeInputs, decodeBus, decodeStream, hv]
  · simp [decodeInputs, decodeBus, decodeStream, he]
  · simp [decodeInputs, decodeBus, decodeStream, hw]
  · simp [decodeInputs, hr]

/-- Settles O1: eleven words, evaluated. -/
theorem opcodeWordsDecode : Obligations.OpcodeWordsDecode := by
  unfold Obligations.OpcodeWordsDecode
  decide

end Sys2Proof.Machine
end

