-- ==== Sys2Proof/Proofs/ChecksumArithmetic.lean ====
section
/-! SUPPORT. The checksum over whole byte strings (40_checksum.md rules R131 to R144): `verify` as a residue of the exact sum, the
accumulator over a byte string, and what replacing bytes does to the exact sum. -/

namespace Sys2Proof.Machine

/-! ## The loop of `fold` (R132) -/

/-- One iteration of the loop. -/
theorem fold_step (s : Nat) : fold s = if s > 0xFFFF then fold (s % 0x10000 + s / 0x10000) else s := by
  simp only [fold_closed]
  split_ifs <;> omega

theorem fold_eq_zero_iff (s : Nat) : fold s = 0 ↔ s = 0 := by
  rw [fold_closed]
  split <;> omega

theorem fold_mod (s : Nat) : fold s % 0xFFFF = s % 0xFFFF := by
  rw [fold_closed]
  split <;> omega

/-! ## `verify` and the exact sum -/

/-- A byte string passes `verify` exactly if its exact sum is a nonzero multiple of 0xFFFF (R132, R135). -/
theorem verify_iff_sum (bs : List Byte) : verify bs = true ↔ wordsum bs ≠ 0 ∧ wordsum bs % 65535 = 0 := by
  rw [verify_iff, fold_closed]
  split <;> omega

/-- `verify` looks at the exact sum only (R134, R135). -/
theorem verify_eq_of_wordsum_eq {bs cs : List Byte} (h : wordsum bs = wordsum cs) : verify bs = verify cs := by
  rw [verify, verify, compute, compute, h]

/-- A word at an even offset (R133). -/
theorem wordsum_word_between {p : List Byte} (a b : Byte) (r : List Byte) (hp : p.length % 2 = 0) :
    wordsum (p ++ [a, b] ++ r) = wordsum p + (a.toNat * 256 + b.toNat) + wordsum r := by
  rw [List.append_assoc, wordsum_append _ _ hp]
  simp only [List.cons_append, List.nil_append, wordsum, Nat.shiftLeft_eq]
  omega

/-- A 16-bit field is one word of the sum (R71, R133). -/
theorem wordsum_halfBytes (v : Half) : wordsum (halfBytes v) = v.toNat := by
  have hv := v.isLt
  simp only [halfBytes, wordsum, BitVec.extractLsb'_toNat, Nat.shiftRight_eq_div_pow, Nat.shiftLeft_eq]
  omega

/-- A 32-bit field is two words of the sum (R71, R133). -/
theorem wordsum_wordBytes (s : Word) : wordsum (wordBytes s) = s.toNat / 65536 + s.toNat % 65536 := by
  have hs := s.isLt
  simp only [wordBytes, wordsum, BitVec.extractLsb'_toNat, Nat.shiftRight_eq_div_pow, Nat.shiftLeft_eq]
  omega

/-- Each word adds at most 0xFFFF (R136). -/
theorem wordsum_le : ∀ bs : List Byte, wordsum bs ≤ (bs.length + 1) / 2 * 65535
  | [] => Nat.zero_le _
  | [b] => by
    have hb := b.isLt
    simp only [wordsum, Nat.shiftLeft_eq, List.length_singleton]
    omega
  | b :: c :: bs => by
    have hb := b.isLt
    have hc := c.isLt
    have ih := wordsum_le bs
    simp only [wordsum, Nat.shiftLeft_eq, List.length_cons]
    omega

/-! ## The accumulator -/

theorem accumulate_append (xs ys : List Byte) (k : Nat) (a : Half) :
    accumulate k a (xs ++ ys) = accumulate (k + xs.length) (accumulate k a xs) ys := by
  induction xs generalizing k a with
  | nil => rfl
  | cons x xs ih => rw [List.cons_append, accumulate, accumulate, ih, List.length_cons, Nat.add_right_comm, Nat.add_assoc]

/-- The byte-serial accumulator is the folded exact sum (R139). -/
theorem accumulate_toNat (bs : List Byte) : (accumulate 0 0#16 bs).toNat = fold (wordsum bs) := by
  induction bs using List.reverseRecOn with
  | nil => rfl
  | append_singleton bs b ih =>
    rw [accumulate_append, accumulate, accumulate, ocadd_toNat, ih, fold_fold_add, wordsum_snoc, Nat.zero_add]

/-- FRX's test of the accumulator is `verify` (R140). -/
theorem verify_iff_accumulate (bs : List Byte) : verify bs = true ↔ accumulate 0 0#16 bs = 0xFFFF#16 := by
  rw [verify_iff, ← accumulate_toNat, ← BitVec.toNat_inj, BitVec.toNat_ofNat]

/-- `sacc` is the accumulator after the 8 sync bytes (R141). -/
theorem sacc_eq_accumulate (s : Word) : sacc s = accumulate 0 0#16 (wordBytes s ++ wordBytes s) := by
  rw [← BitVec.toNat_inj, sacc_toNat, accumulate_toNat]

/-- `wordsum` is the sum of the contributions, each at its own offset (R138). -/
theorem wordsum_eq_sum_contrib (bs : List Byte) :
    wordsum bs = ((List.range bs.length).map fun k => (contrib k (bs.getD k 0#8)).toNat).sum := by
  induction bs using List.reverseRecOn with
  | nil => rfl
  | append_singleton bs b ih =>
    have hbefore : ((List.range bs.length).map fun k => (contrib k ((bs ++ [b]).getD k 0#8)).toNat) =
        (List.range bs.length).map fun k => (contrib k (bs.getD k 0#8)).toNat :=
      List.map_congr_left fun k hk => by rw [List.getD_append _ _ _ _ (List.mem_range.1 hk)]
    rw [wordsum_snoc, ih, List.length_append, List.length_singleton, List.range_succ, List.map_append, List.sum_append, hbefore,
      List.map_singleton, List.sum_singleton, List.getD_append_right _ _ _ _ le_rfl, Nat.sub_self, List.getD_cons_zero]

/-! ## Replaced bytes -/

/-- Two strings that differ in one byte differ in its contribution (R138). -/
theorem wordsum_replace_byte (pre post : List Byte) (b c : Byte) :
    wordsum (pre ++ b :: post) + (contrib pre.length c).toNat = wordsum (pre ++ c :: post) + (contrib pre.length b).toNat := by
  induction post using List.reverseRecOn with
  | nil => rw [wordsum_snoc, wordsum_snoc, Nat.add_right_comm]
  | append_singleton post d ih =>
    rw [← List.cons_append, ← List.cons_append, ← List.append_assoc, ← List.append_assoc, wordsum_snoc, wordsum_snoc]
    simp only [List.length_append, List.length_cons]
    omega

/-- Setting a clear bit adds its weight. -/
theorem toNat_xor_twoPow {w k : Nat} {x : BitVec w} (hk : k < w) (hclear : x.getLsbD k = false) :
    (x ^^^ BitVec.twoPow w k).toNat = x.toNat + 2 ^ k := by
  have hand : x &&& BitVec.twoPow w k = 0#w := by rw [BitVec.and_twoPow, hclear]; rfl
  have hxor : x ^^^ BitVec.twoPow w k = x + BitVec.twoPow w k := by
    rw [BitVec.add_eq_or_of_and_eq_zero _ _ hand]
    ext i hi
    rw [BitVec.getElem_xor, BitVec.getElem_or, BitVec.getElem_twoPow]
    by_cases hik : i = k
    · subst hik
      simp [← BitVec.getLsbD_eq_getElem hi, hclear]
    · simp [hik]
  rw [hxor, BitVec.toNat_add_of_and_eq_zero hand, BitVec.toNat_twoPow_of_lt hk]

/-- A flipped bit is a set bit of one of the two values. -/
theorem toNat_flip {w k : Nat} (x : BitVec w) (hk : k < w) :
    (x ^^^ BitVec.twoPow w k).toNat = x.toNat + 2 ^ k ∨ x.toNat = (x ^^^ BitVec.twoPow w k).toNat + 2 ^ k := by
  cases hx : x.getLsbD k
  · exact .inl (toNat_xor_twoPow hk hx)
  · have hclear : (x ^^^ BitVec.twoPow w k).getLsbD k = false := by simp [hx, hk]
    have hset := toNat_xor_twoPow hk hclear
    rw [BitVec.xor_assoc, BitVec.xor_self, BitVec.xor_zero] at hset
    exact .inr hset

/-- A flipped bit moves the exact sum by a power of two, up or down, that is no multiple of 0xFFFF (R143). -/
theorem wordsum_flip (pre post : List Byte) (b : Byte) {k : Nat} (hk : k < 8) :
    ∃ d, 0 < d ∧ d < 65535 ∧
      (wordsum (pre ++ (b ^^^ (1#8 <<< k)) :: post) = wordsum (pre ++ b :: post) + d ∨
        wordsum (pre ++ b :: post) = wordsum (pre ++ (b ^^^ (1#8 <<< k)) :: post) + d) := by
  have hpos : 0 < 2 ^ k := Nat.two_pow_pos k
  have hle : 2 ^ k < 2 ^ 8 := Nat.pow_lt_pow_right (by decide) hk
  have hflip := toNat_flip b hk
  have hsum := wordsum_replace_byte pre post b (b ^^^ (1#8 <<< k))
  rw [BitVec.twoPow] at hflip
  simp only [contrib_toNat] at hsum
  split at hsum
  · exact ⟨2 ^ k * 256, by omega, by omega, by omega⟩
  · exact ⟨2 ^ k, by omega, by omega, by omega⟩

/-! ## The checksum field -/

/-- The checksum field is one word, at the even offset 10 (R137). -/
theorem wordsum_withChecksum {frame : List Byte} (c : Half) (hlen : 10 ≤ frame.length) :
    wordsum (withChecksum frame c) = wordsum (frame.take 10) + c.toNat + wordsum (frame.drop 12) := by
  have htake : (frame.take 10).length = 10 := List.length_take_of_le hlen
  rw [withChecksum, List.append_assoc, wordsum_append _ _ (by rw [htake]), wordsum_append (halfBytes c) _ (by simp [halfBytes]),
    wordsum_halfBytes, Nat.add_assoc]

/-- `compute` is what is missing to 0xFFFF (R134). -/
theorem compute_toNat (bs : List Byte) : (compute bs).toNat = 65535 - fold (wordsum bs) := by
  rw [compute, BitVec.toNat_not, BitVec.toNat_ofNat, Nat.mod_eq_of_lt (fold_lt _)]

/-- A frame with its checksum applied passes `verify` (R142). -/
theorem verify_applyChecksum {frame : List Byte} (hlen : 10 ≤ frame.length) : verify (applyChecksum frame) = true := by
  have hzero := wordsum_withChecksum 0#16 hlen
  rw [verify_iff_sum, applyChecksum, wordsum_withChecksum _ hlen, compute_toNat, hzero, fold_closed]
  simp only [BitVec.toNat_ofNat]
  split <;> omega

end Sys2Proof.Machine
end

