-- ==== Sys2Proof/Proofs/FrameReception.lean ====
section
/-! SUPPORT. Bytes taken one per cycle with the bus idle (41_stream.md rules R163 to R179): a run over them is the chain of their stream
effects, and over a whole frame with a good header that chain ends in the judgement of its checksum. -/

namespace Sys2Proof.Machine

/-! ## Runs of bytes -/

/-- The elements after the stream effects of these bytes, one after the other, with no other write. -/
def takeBytes : List Byte → Arch → Except Fault Arch
  | [], a => .ok a
  | b :: bs, a =>
    match streamEffect b a a with
    | .ok n => takeBytes bs n
    | .error f => .error f

theorem takeBytes_cons {b : Byte} {bs : List Byte} {a n : Arch} (h : streamEffect b a a = .ok n) :
    takeBytes (b :: bs) a = takeBytes bs n := by rw [takeBytes, h]

theorem takeBytes_append {xs ys : List Byte} {a n : Arch} (h : takeBytes xs a = .ok n) :
    takeBytes (xs ++ ys) a = takeBytes ys n := by
  induction xs generalizing a with
  | nil => cases h; rfl
  | cons x xs ih =>
    cases hx : streamEffect x a a with
    | ok u => rw [List.cons_append, takeBytes_cons hx, ih ((takeBytes_cons hx).symm.trans h)]
    | error f => rw [takeBytes, hx] at h; cases h

/-- The inputs of a cycle that offers a byte with the bus idle. -/
theorem ofWord_byteWord (b : Byte) :
    CycleIn.ofWord (encodeCycle [.bIdle, .sByte b]) = { CycleIn.idle with inValid := true, inData := b } := by
  rw [ofWord_encodeCycle_pair]
  simp [CycleIn.or, Instr.inputs, CycleIn.idle]

/-- With the channel enabled, such a cycle leaves the byte's stream effect; in HOLD that is no effect (R161, R163). -/
theorem cycleElements_byteWord {a : Arch} (p : Params) (b : Byte) (hen : a.en = true) :
    cycleElements p a (CycleIn.ofWord (encodeCycle [.bIdle, .sByte b])) = streamEffect b a a := by
  rw [ofWord_byteWord, cycleElements_of_not_write p a (by simp [CycleIn.idle])]
  cases hst : a.st <;> simp [byteTaken, CycleIn.idle, hen, hst, streamEffect]

/-- A run over bytes is the chain of their stream effects. -/
theorem exists_runWords_byteWords {bs : List Byte} {s : State} {a : Arch} (hen : s.arch.en = true)
    (h : takeBytes bs s.arch = .ok a) : ∃ t, runWords (byteWords bs) s = .next t ∧ t.arch = a := by
  induction bs generalizing s with
  | nil => exact ⟨_, runWords_nil s, by cases h; rfl⟩
  | cons b bs ih =>
    cases hb : streamEffect b s.arch s.arch with
    | error f => rw [takeBytes, hb] at h; cases h
    | ok n =>
      have hcycle := (cycleElements_byteWord s.params b hen).trans hb
      obtain ⟨u, hu, rfl⟩ : ∃ u, step (s.withInputs (byteWords (b :: bs))) = .next u ∧ u.arch = n :=
        ⟨_, step_eq_next.2 ⟨n, hcycle, rfl⟩, rfl⟩
      obtain ⟨t, ht, ha⟩ := ih ((streamEffect_frame hb).1.trans hen) ((takeBytes_cons hb).symm.trans h)
      exact ⟨t, (runWords_cons hu).trans ht, ha⟩

/-! ## The sync pattern -/

/-- A byte that cannot complete the 8 bytes of the window is shifted in (R165). -/
theorem streamEffect_hunt_short {a : Arch} (b : Byte) (hst : a.st = .hunt) (hfill : a.fill.toNat < 7) :
    streamEffect b a a = .ok { a with win := shiftWindow a.win b, fill := a.fill + 1#4 } := by
  have hmin : min (a.fill.toNat + 1) 8 = a.fill.toNat + 1 := by omega
  have hnext : BitVec.ofNat 4 (a.fill.toNat + 1) = a.fill + 1#4 := by bv_omega
  obtain ⟨h8, -, -⟩ | ⟨-, he⟩ := huntByte_cases b a a
  · omega
  · simp only [streamEffect, hst, he, hmin, hnext]

/-- A window of fewer than 8 bytes only collects (R165). -/
theorem takeBytes_hunt_short {bs : List Byte} {a : Arch} (hst : a.st = .hunt) (hfill : a.fill.toNat + bs.length ≤ 7) :
    takeBytes bs a = .ok { a with win := bs.foldl shiftWindow a.win, fill := a.fill + BitVec.ofNat 4 bs.length } := by
  induction bs generalizing a with
  | nil => simp [takeBytes]
  | cons b bs ih =>
    rw [List.length_cons] at hfill
    have hnext : (a.fill + 1#4).toNat = a.fill.toNat + 1 := by bv_omega
    have ih := @ih { a with win := shiftWindow a.win b, fill := a.fill + 1#4 } hst (by simp only [hnext]; omega)
    rw [takeBytes_cons (streamEffect_hunt_short b hst (by omega)), ih, List.length_cons, Nat.add_comm, BitVec.ofNat_add,
      BitVec.add_assoc]
    rfl

/-- The four bytes of a word shift it into the window (R165). -/
theorem foldl_shiftWindow_wordBytes (win : BitVec 64) (s : Word) :
    ((wordBytes s).foldl shiftWindow win).toNat = (win.toNat * 2 ^ 32 + s.toNat) % 2 ^ 64 := by
  have hs := s.isLt
  simp only [wordBytes, List.foldl_cons, List.foldl_nil, shiftWindow_toNat, BitVec.extractLsb'_toNat, Nat.shiftRight_eq_div_pow]
  omega

/-- The bytes of `SYNC ‖ SYNC` are the search pattern (R165). -/
theorem foldl_shiftWindow_sync (s : Word) : (wordBytes s ++ wordBytes s).foldl shiftWindow 0#64 = syncPattern s := by
  have hs := s.isLt
  rw [← BitVec.toNat_inj, syncPattern, toNat_append, List.foldl_append, foldl_shiftWindow_wordBytes, foldl_shiftWindow_wordBytes,
    BitVec.toNat_ofNat]
  omega

/-- The byte that completes the pattern starts a frame (R166). -/
theorem streamEffect_hunt_found {a : Arch} {b : Byte} (hst : a.st = .hunt) (hfill : a.fill = 7#4)
    (hwin : shiftWindow a.win b = syncPattern a.sync) : streamEffect b a a = .ok (syncFound a a) := by
  obtain ⟨-, -, he⟩ | ⟨hno, -⟩ := huntByte_cases b a a
  · simp only [streamEffect, hst, he]
  · exact absurd ⟨by rw [hfill]; rfl, hwin⟩ hno

/-- From an empty window the 8 sync bytes start a frame (R166). -/
theorem takeBytes_sync {a : Arch} (hst : a.st = .hunt) (hwin : a.win = 0#64) (hfill : a.fill = 0#4) :
    takeBytes (wordBytes a.sync ++ wordBytes a.sync) a = .ok (syncFound a a) := by
  have hsplit : wordBytes a.sync ++ wordBytes a.sync =
      (wordBytes a.sync ++ (wordBytes a.sync).take 3) ++ [a.sync.extractLsb' 0 8] := rfl
  have hpattern := foldl_shiftWindow_sync a.sync
  rw [hsplit, List.foldl_append, ← hwin] at hpattern
  rw [hsplit, takeBytes_append (takeBytes_hunt_short hst (by rw [hfill]; exact Nat.le_refl 7)), hfill]
  exact takeBytes_cons (streamEffect_hunt_found hst rfl hpattern)

/-! ## The header -/

/-- The two bytes of a field, high byte first, fill it (R168, R169). -/
@[simp] theorem setLow_setHigh (v w : Half) : setLow (setHigh v (w.extractLsb' 8 8)) (w.extractLsb' 0 8) = w := by
  have hw := w.isLt
  rw [setLow, setHigh_high, ← BitVec.toNat_inj, toNat_append]
  simp only [BitVec.extractLsb'_toNat, Nat.shiftRight_eq_div_pow]
  omega

/-- The header bytes before the flags byte, the sync words left out. -/
def fieldBytes (n c : Half) (i : Byte) : List Byte := halfBytes n ++ halfBytes c ++ [i]

theorem header_append (s : Word) (n c : Half) (i f : Byte) (payload : List Byte) :
    header s n c i f ++ payload = (wordBytes s ++ wordBytes s) ++ (fieldBytes n c i ++ (f :: payload)) := by
  simp [header, fieldBytes]

/-- The header fields are collected byte by byte (R168 to R170). -/
theorem takeBytes_fieldBytes {a : Arch} (n c : Half) (i : Byte) (hst : a.st = .hdr) (hc : a.hcnt = 0#3) :
    takeBytes (fieldBytes n c i) a =
      .ok { a with hLen := n, hCsum := c, hId := i, hcnt := 5#3, acc := accumulate 8 a.acc (fieldBytes n c i) } := by
  simp [fieldBytes, halfBytes, takeBytes, streamEffect, hst, hdrByte, hc, accWith, accumulate]

/-! ## The flags byte and the payload -/

/-- A payload of the announced length fits FB (R46). -/
theorem pcnt_lt_fbSize {a : Arch} (h : a.pcnt.toNat + 1 ≤ a.hLen.toNat) : a.pcnt.toNat < fbSize := by
  have hlen := a.hLen.isLt
  rw [fbSize]
  omega

/-- A payload byte with more to come is stored (R173). -/
theorem streamEffect_pay_more {a : Arch} (b : Byte) (hst : a.st = .pay) (hmore : a.pcnt.toNat + 1 < a.hLen.toNat) :
    streamEffect b a a =
      .ok { a with
        fb := a.fb.write a.pcnt.toNat b
        acc := accWith (14 + a.pcnt.toNat) b a
        pcnt := a.pcnt + 1#16 } := by
  have hsize := pcnt_lt_fbSize hmore.le
  simp only [streamEffect, hst, payByte, hsize, if_true, hmore.ne, if_false]

/-- The last payload byte is stored, and the frame is judged (R173, R174). -/
theorem streamEffect_pay_last {a : Arch} (b : Byte) (hst : a.st = .pay) (hlast : a.pcnt.toNat + 1 = a.hLen.toNat) :
    streamEffect b a a =
      .ok (judgeChecksum (accWith (14 + a.pcnt.toNat) b a) a.hFlags a
        { a with
          fb := a.fb.write a.pcnt.toNat b
          acc := accWith (14 + a.pcnt.toNat) b a
          pcnt := a.pcnt + 1#16 }) := by
  have hsize := pcnt_lt_fbSize hlast.le
  simp only [streamEffect, hst, payByte, hsize, if_true, hlast]

/-- The rest of a payload is stored, and its last byte has the frame judged (R173, R174). -/
theorem takeBytes_payload {b : Byte} {bs : List Byte} {a : Arch} (hst : a.st = .pay)
    (hlen : a.pcnt.toNat + (b :: bs).length = a.hLen.toNat) :
    ∃ pcnt acc fb,
      takeBytes (b :: bs) a = .ok (judgeChecksum (accumulate (14 + a.pcnt.toNat) a.acc (b :: bs)) a.hFlags a
        { a with pcnt := pcnt, acc := acc, fb := fb }) ∧
      fbBytes fb a.hLen.toNat = fbBytes a.fb a.pcnt.toNat ++ b :: bs := by
  induction bs generalizing a b with
  | nil => exact ⟨_, _, _, takeBytes_cons (streamEffect_pay_last b hst hlen), by rw [← hlen]; exact fbBytes_write _ _ _⟩
  | cons c bs ih =>
    have hmore : a.pcnt.toNat + 1 < a.hLen.toNat := by simp only [List.length_cons] at hlen; omega
    have hnext : (a.pcnt + 1#16).toNat = a.pcnt.toNat + 1 := by have := a.hLen.isLt; bv_omega
    obtain ⟨pcnt, acc, fb, htake, hfb⟩ := @ih c
      { a with fb := a.fb.write a.pcnt.toNat b, acc := accWith (14 + a.pcnt.toNat) b a, pcnt := a.pcnt + 1#16 } hst
      (by simp only [hnext, List.length_cons] at hlen ⊢; omega)
    simp only [hnext] at htake hfb
    refine ⟨pcnt, acc, fb, ?_, ?_⟩
    · rw [takeBytes_cons (streamEffect_pay_more b hst hmore), htake]
      rfl
    · rw [hfb, fbBytes_write, List.append_assoc]
      rfl

/-- After a header that passes R172 the flags byte of a control frame, or the last byte of a payload of the announced length, has the
frame judged (R171, R174). -/
theorem takeBytes_flags_payload {a : Arch} {f : Byte} {payload : List Byte} (hst : a.st = .hdr) (hc : a.hcnt = 5#3)
    (hk : hdrOk a.hLen a.hId f = true) (hlen : payload.length = a.hLen.toNat) :
    ∃ st pcnt acc fb,
      takeBytes (f :: payload) a = .ok (judgeChecksum (accumulate 13 a.acc (f :: payload)) f a
        { a with hFlags := f, st := st, pcnt := pcnt, acc := acc, fb := fb }) ∧
      fbBytes fb a.hLen.toNat = payload := by
  have hflags : streamEffect f a a = .ok (flagsByte f a a) := by simp [streamEffect, hst, hdrByte, hc]
  rw [takeBytes_cons hflags]
  obtain ⟨hbad, -⟩ | ⟨-, h0, he⟩ | ⟨-, h0, he⟩ := flagsByte_cases f a a
  · simp [hk] at hbad
  · obtain rfl : payload = [] := List.eq_nil_of_length_eq_zero (by rw [hlen, h0]; rfl)
    exact ⟨_, _, _, a.fb, by rw [he]; rfl, by rw [h0]; rfl⟩
  · cases payload with
    | nil => exact absurd (BitVec.eq_of_toNat_eq hlen.symm) h0
    | cons b bs =>
      rw [he]
      obtain ⟨pcnt, acc, fb, htake, hfb⟩ := @takeBytes_payload b bs
        { a with acc := accWith 13 f a, hFlags := f, st := .pay, pcnt := 0#16 } rfl ((Nat.zero_add _).trans hlen)
      exact ⟨_, pcnt, acc, fb, htake, hfb⟩

/-! ## A whole frame -/

/-- A frame with a good header, taken from an empty window, is judged by the accumulator over all its bytes (R139, R140). -/
theorem takeBytes_frame {a : Arch} {n c : Half} {i f : Byte} {payload : List Byte} (hst : a.st = .hunt) (hwin : a.win = 0#64)
    (hfill : a.fill = 0#4) (hk : hdrOk n i f = true) (hlen : payload.length = n.toNat) :
    ∃ pre nx,
      takeBytes (header a.sync n c i f ++ payload) a =
        .ok (judgeChecksum (accumulate 0 0#16 (header a.sync n c i f ++ payload)) f pre nx) ∧
      (pre.hLen, pre.hCsum, pre.hId) = (n, c, i) ∧
      (nx.rej, nx.rxLen, nx.rxCsum, nx.rxId, nx.rxFlags) = (a.rej, a.rxLen, a.rxCsum, a.rxId, a.rxFlags) ∧
      fbBytes nx.fb n.toNat = payload := by
  obtain ⟨st, pcnt, acc, fb, htake, hfb⟩ := @takeBytes_flags_payload
    { syncFound a a with hLen := n, hCsum := c, hId := i, hcnt := 5#3, acc := accumulate 8 (sacc a.sync) (fieldBytes n c i) }
    f payload rfl rfl hk hlen
  rw [header_append, takeBytes_append (takeBytes_sync hst hwin hfill), takeBytes_append (takeBytes_fieldBytes n c i rfl rfl),
    accumulate_append, accumulate_append, ← sacc_eq_accumulate]
  exact ⟨_, _, htake, rfl, rfl, hfb⟩

end Sys2Proof.Machine
end

