-- ==== Sys2Proof/Proofs/Checksum.lean ====
section
/-! The statements of the checksum family (40_checksum.md rules R130 to R144), and the judgement of a whole frame (41_stream.md rules
R171 to R179). -/

namespace Sys2Proof.Machine

/-- Settles O48: the carry of the exact sum is 0 or 1, so one step of the loop of R132 ends it. -/
theorem ocaddIsFold : Obligations.OcaddIsFold := by
  refine ⟨fun a v => ⟨?_, ocadd_toNat a v⟩, by decide⟩
  have ha := a.isLt
  have hv := v.isLt
  rw [ocadd_toNat, fold_closed]
  split <;> omega

/-- Settles O49: `fold` keeps the residue modulo 0xFFFF and is 0 of 0 only, and `1 .. 0xFFFF` has one value of each residue. -/
theorem foldIsResidue : Obligations.FoldIsResidue := by
  refine ⟨fun s => ⟨fold_step s, fun _ => by omega, fold_eq_zero_iff s, Nat.le_of_lt_succ (fold_lt s), fold_mod s,
    fun v _ _ _ hs => ?_⟩, by simp [fold_closed]⟩
  have hne : fold s ≠ 0 := mt (fold_eq_zero_iff s).1 hs
  have hlt := fold_lt s
  have hmod := fold_mod s
  omega

/-- Settles O50: a byte appended to a string adds its contribution to both sides. -/
theorem accumulatorLaw : Obligations.AccumulatorLaw := by
  refine ⟨fun k b => ⟨?_, ?_⟩, fun bs => ⟨wordsum_eq_sum_contrib bs, ?_⟩⟩
  · rw [contrib_toNat, Nat.shiftLeft_eq]
  · have hparity : (14 + k) % 2 = k % 2 := by omega
    rw [contrib, contrib, hparity]
  · rw [accumulate_toNat, wordsum_eq_sum_contrib]

/-- Settles O51: the sync word is two words of the exact sum, counted twice. -/
theorem saccCountsSyncBytes : Obligations.SaccCountsSyncBytes := by
  intro s
  refine ⟨?_, sacc_eq_accumulate s⟩
  rw [sacc_toNat, wordsum_append _ _ (by simp [wordBytes]), wordsum_wordBytes]
  congr 1
  omega

/-- Settles O52: the largest frame has 32775 words. -/
theorem wordsumFitsIn32Bits : Obligations.WordsumFitsIn32Bits := by
  intro bs hlen
  have hsum := wordsum_le bs
  omega

/-- Settles O53: a frame has its 14 header bytes, whatever the payload. -/
theorem builtFramesVerify : Obligations.BuiltFramesVerify := by
  intro s n i f payload
  exact verify_applyChecksum (by rw [List.length_append, header_length]; omega)

/-- Settles O54: two multiples of 0xFFFF do not differ by a flipped bit. -/
theorem singleBitErrorsAreDetected : Obligations.SingleBitErrorsAreDetected := by
  intro pre post b k hk hgood
  obtain ⟨d, hpos, hlt, hd⟩ := wordsum_flip pre post b hk
  rw [verify_iff_sum] at hgood
  rw [Bool.eq_false_iff, ne_eq, verify_iff_sum]
  omega

/-- Settles O55: an exchange leaves the exact sum, and a word 0xFFFF leaves its residue. -/
theorem wordExchangeIsNotDetected : Obligations.WordExchangeIsNotDetected := by
  intro p q r a b c d hp hq
  refine ⟨verify_eq_of_wordsum_eq ?_, ?_⟩
  · have hpre (x y : Byte) : (p ++ [x, y] ++ q).length % 2 = 0 := by
      simp only [List.length_append, List.length_cons, List.length_nil]
      omega
    rw [wordsum_word_between c d r (hpre a b), wordsum_word_between a b r (hpre c d), wordsum_word_between a b q hp,
      wordsum_word_between c d q hp]
    omega
  · have hzero : (0 : Byte).toNat = 0 := rfl
    have hones : (0xFF : Byte).toNat = 255 := rfl
    simp only [verify_iff_sum, wordsum_word_between _ _ r hp, hzero, hones]
    omega

/-- Settles O59: the run is the chain of its stream effects, which ends in the judgement of the accumulator, and that is `verify`. -/
theorem frameIsJudgedByVerify : Obligations.FrameIsJudgedByVerify := by
  intro s n c i f payload hst hwin hfill hen hk hlen frame
  obtain ⟨pre, nx, htake, hpre, hnx, hfb⟩ := takeBytes_frame (c := c) hst hwin hfill hk hlen
  obtain ⟨t, ht, harch⟩ := exists_runWords_byteWords hen htake
  simp only [Prod.mk.injEq] at hpre hnx
  obtain ⟨hn, hc, hi⟩ := hpre
  obtain ⟨hrej, hrx⟩ := hnx
  refine ⟨t, ht, ?_⟩
  rw [← Bool.not_eq_true, verify_iff_accumulate, harch]
  obtain ⟨hgood, he⟩ | ⟨hbad, he⟩ := judgeChecksum_cases (accumulate 0 0#16 frame) f pre nx <;> rw [he]
  · exact ⟨fun _ => ⟨rfl, hn, hc, hi, rfl, hrej, hfb⟩, fun hbad => absurd hgood hbad⟩
  · exact ⟨fun hgood => absurd hgood hbad, fun _ => ⟨rfl, rfl, hrx⟩⟩

end Sys2Proof.Machine
end

