-- ==== Sys2Proof/Proofs/StreamCycles.lean ====
section
/-! SUPPORT. Cycles whose byte has no effect (41_stream.md rules R160 to R164): a byte that is not taken, an effective command, no
request at all; and a run as the chain of its cycles' elements. -/

namespace Sys2Proof.Machine

/-! ## The outputs of the stream channel -/

/-- `in_ready` (R160). -/
theorem cycleOutputs_inReady (a : Arch) (i : CycleIn) : (cycleOutputs a i).inReady = (!i.rst && inReady a) := by
  cases hr : i.rst <;> simp [cycleOutputs, hr]

/-- `accepted` is `in_valid ∧ in_ready` (R161). -/
theorem cycleOutputs_accepted (a : Arch) (i : CycleIn) :
    (cycleOutputs a i).accepted = (i.inValid && (cycleOutputs a i).inReady) := by
  cases hr : i.rst <;> simp [cycleOutputs, hr]

/-- A byte is taken in a cycle exactly if it is accepted (R161). -/
theorem byteTaken_eq_accepted (a : Arch) (i : CycleIn) : byteTaken i a = (cycleOutputs a i).accepted := by
  cases hr : i.rst <;> simp [cycleOutputs_accepted, cycleOutputs_inReady, byteTaken, inReady, hr, Bool.and_assoc]

/-! ## Cycles in which no byte has an effect -/

section Cycle

variable {a : Arch} {i : CycleIn}

/-- A cycle that takes no byte is its reset or its bus operation alone. -/
theorem cycleElements_of_not_taken (p : Params) (h : byteTaken i a = false) :
    cycleElements p a i = if i.rst then .ok (resetElements p a) else .ok (busElements a i) := by
  simp [cycleElements, h]

/-- A byte that is not taken leaves what no byte leaves (R161). -/
theorem cycleElements_not_offered (p : Params) (h : byteTaken i a = false) :
    cycleElements p a { i with inValid := false } = cycleElements p a i := by
  rw [cycleElements_of_not_taken p h, cycleElements_of_not_taken p (by simp [byteTaken])]
  rfl

/-- A command takes effect in a cycle without reset (R212, R270). -/
theorem rst_of_command (h : abortsNow i a = true ∨ releasesNow i a = true) : i.rst = false := by
  cases hr : i.rst
  · rfl
  · simp [abortsNow, releasesNow, hr] at h

/-- An effective ABORT drops the byte of its cycle, and in the cycle of an effective RELEASE none is taken: the command alone changes
the elements (R163, R212). -/
theorem cycleElements_of_command (p : Params) (h : abortsNow i a = true ∨ releasesNow i a = true) :
    cycleElements p a i = .ok (backToHunt a) := by
  have hnone : (byteTaken i a && !abortsNow i a) = false := by
    obtain habort | hrel := h
    · simp [habort]
    · have hnot : byteTaken i a ≠ true := fun ht => by simp [releasesNow_of_byteTaken ht] at hrel
      simp [hnot]
  simp [cycleElements, rst_of_command h, hnone, busElements_of_command h.symm]

/-- The decoder gives B_IDLE only for an idle bus (R106). -/
theorem busEn_of_decodeBus_bIdle (h : decodeBus i = .bIdle) : i.busEn = false := by
  rw [decodeBus] at h
  split_ifs at h with hen hwe
  · simpa using hen
  · have hwrite := (decodeWrite_isBusRequest i.busAddr i.busWdata).inputs
    exact nomatch (congrArg CycleIn.busEn (h ▸ hwrite) : false = true)
  · have hread := (decodeRead_isBusRequest i.busAddr).inputs
    exact nomatch (congrArg CycleIn.busEn (h ▸ hread) : false = true)

/-- A cycle that requests nothing drives none of the three request inputs (R101 to R106). -/
theorem inputs_of_decodeInputs_idle (h : decodeInputs i = [.bIdle, .sIdle]) :
    i.rst = false ∧ i.busEn = false ∧ i.inValid = false := by
  rw [decodeInputs] at h
  split_ifs at h with hr
  · cases h
  · obtain ⟨hbus, hstream⟩ : decodeBus i = .bIdle ∧ decodeStream i = .sIdle := by simpa using h
    refine ⟨by simpa using hr, busEn_of_decodeBus_bIdle hbus, ?_⟩
    cases hv : i.inValid
    · rfl
    · simp [decodeStream, hv] at hstream

/-- A cycle that requests nothing changes no element (R162, R200). -/
theorem cycleElements_of_idle (p : Params) (a : Arch) (h : decodeInputs i = [.bIdle, .sIdle]) : cycleElements p a i = .ok a := by
  obtain ⟨hr, hen, hv⟩ := inputs_of_decodeInputs_idle h
  have hno : byteTaken i a = false := by simp [byteTaken, hv]
  rw [cycleElements_of_not_write p a (by simp [hen]), hr, hno]
  rfl

end Cycle

/-! ## Runs -/

/-- The elements after cycles with these words, one after the other. -/
def runElements (p : Params) (ws : List CycleWord) (a : Arch) : Except Fault Arch :=
  ws.foldlM (fun a w => cycleElements p a (CycleIn.ofWord w)) a

theorem runElements_cons (p : Params) (w : CycleWord) (ws : List CycleWord) (a : Arch) :
    runElements p (w :: ws) a = (cycleElements p a (CycleIn.ofWord w)).bind (runElements p ws) := List.foldlM_cons

/-- A run is its first cycle, and the run over the other words if that answers a next state. -/
theorem runWords_cons_eq_andThen (w : CycleWord) (ws : List CycleWord) (s : State) :
    runWords (w :: ws) s = andThen (step (s.withInputs (w :: ws))) (runWords ws) := by
  cases hu : step (s.withInputs (w :: ws)) with
  | next u => exact runWords_cons hu
  | fault r | refused r =>
    have hcore : Sys2Proof.core.step (s.withInputs (w :: ws)) = _ := hu
    simp only [runWords, List.length_cons, Host.Core.run, hcore]
    rfl

/-- A run answers a next state exactly when the chain of its cycles' elements is defined, and ends with the elements of the chain. -/
theorem exists_runWords_iff {ws : List CycleWord} {s : State} {a : Arch} :
    (∃ t, runWords ws s = .next t ∧ t.arch = a) ↔ runElements s.params ws s.arch = .ok a := by
  induction ws generalizing s with
  | nil => simp [runElements, pure, Except.pure]
  | cons w ws ih =>
    simp only [runWords_cons_eq_andThen, andThen_eq_next, step_eq_next, runElements_cons, State.withInputs_params,
      State.withInputs_arch, State.nextWord_withInputs_cons]
    cases hn : cycleElements s.params s.arch (CycleIn.ofWord w) with
    | error f => simp [Except.bind]
    | ok n =>
      have htail : (∃ t, runWords ws ((s.withInputs (w :: ws)).afterCycle n (cycleOutputs s.arch (CycleIn.ofWord w))) = .next t ∧
          t.arch = a) ↔ runElements s.params ws n = .ok a := ih
      simpa [Except.bind] using htail

/-- Words that request nothing may be left out of the chain. -/
theorem runElements_filter_idle (p : Params) (ws : List CycleWord) (a : Arch) :
    runElements p (ws.filter fun w => decodeCycle w != [.bIdle, .sIdle]) a = runElements p ws a := by
  induction ws generalizing a with
  | nil => rfl
  | cons w ws ih =>
    rw [List.filter_cons, runElements_cons]
    split
    · rw [runElements_cons, funext ih]
    · rename_i hkeep
      have hidle : decodeCycle w = [.bIdle, .sIdle] := by simpa using hkeep
      rw [ih, cycleElements_of_idle p a hidle]
      rfl

end Sys2Proof.Machine
end

