-- ==== Sys2Proof/Proofs/SyncSearch.lean ====
section
/-! SUPPORT. The sync search over a byte string from an empty window (41_stream.md rules R165 to R167): the window is full and equal to
the pattern exactly when the bytes taken so far end in it. And a header with bad fields (R171, R172). -/

namespace Sys2Proof.Machine

/-! ## The window -/

/-- A shift leaves the low bytes of the window in the next bytes, and the new byte below them. -/
theorem shiftWindow_toNat_mod (win : BitVec 64) (b : Byte) {n : Nat} (hn : n + 1 ≤ 8) :
    (shiftWindow win b).toNat % 2 ^ (8 * (n + 1)) = b.toNat + 256 * (win.toNat % 2 ^ (8 * n)) := by
  have hb := b.isLt
  have hdvd : 2 ^ (8 * (n + 1)) ∣ 2 ^ 64 := Nat.pow_dvd_pow 2 (by omega)
  have hpow : 2 ^ (8 * (n + 1)) = 256 * 2 ^ (8 * n) := by rw [Nat.mul_add, Nat.pow_add, Nat.mul_comm]
  have hlow : (win.toNat * 256 + b.toNat) % 256 = b.toNat := by omega
  have hhigh : (win.toNat * 256 + b.toNat) / 256 = win.toNat := by omega
  rw [shiftWindow_toNat, Nat.mod_mod_of_dvd _ hdvd, hpow, Nat.mod_mul, hlow, hhigh]

/-- Up to 8 bytes are told apart by the window after them, whatever it held before. -/
theorem eq_of_foldl_shiftWindow_mod {xs ys : List Byte} {v w : BitVec 64} (hlen : xs.length = ys.length) (h8 : xs.length ≤ 8)
    (h : (xs.foldl shiftWindow v).toNat % 2 ^ (8 * xs.length) = (ys.foldl shiftWindow w).toNat % 2 ^ (8 * xs.length)) :
    xs = ys := by
  induction xs using List.reverseRecOn generalizing ys with
  | nil => exact (List.eq_nil_of_length_eq_zero hlen.symm).symm
  | append_singleton xs x ih =>
    obtain rfl | ⟨ys, y, rfl⟩ := ys.eq_nil_or_concat'
    · simp at hlen
    · simp only [List.length_append, List.length_singleton] at hlen h8 h
      simp only [List.foldl_append, List.foldl_cons, List.foldl_nil, shiftWindow_toNat_mod _ _ h8] at h
      have hx := x.isLt
      have hy := y.isLt
      obtain rfl : x = y := BitVec.eq_of_toNat_eq (by omega)
      rw [ih (ys := ys) (by omega) (by omega) (by omega)]

/-- The bytes of `SYNC ‖ SYNC` (R165). -/
def syncBytes (sync : Word) : List Byte := wordBytes sync ++ wordBytes sync

/-- They fill the window, whatever it held before. -/
theorem foldl_shiftWindow_syncBytes (win : BitVec 64) (sync : Word) : (syncBytes sync).foldl shiftWindow win = syncPattern sync := by
  have hs := sync.isLt
  rw [← BitVec.toNat_inj, syncPattern, toNat_append, syncBytes, List.foldl_append, foldl_shiftWindow_wordBytes,
    foldl_shiftWindow_wordBytes]
  omega

/-- The window holds the pattern after at least 8 bytes exactly if they end in it. -/
theorem syncBytes_suffix_iff (win : BitVec 64) (sync : Word) (bs : List Byte) :
    syncBytes sync <:+ bs ↔ 8 ≤ bs.length ∧ bs.foldl shiftWindow win = syncPattern sync := by
  have h8 : (syncBytes sync).length = 8 := rfl
  constructor
  · rintro ⟨xs, rfl⟩
    rw [List.foldl_append, foldl_shiftWindow_syncBytes, List.length_append, h8]
    exact ⟨Nat.le_add_left 8 _, rfl⟩
  · rintro ⟨hlen, hwin⟩
    rw [List.suffix_iff_eq_drop, h8]
    rw [← List.take_append_drop (bs.length - 8) bs, List.foldl_append, ← foldl_shiftWindow_syncBytes win] at hwin
    exact eq_of_foldl_shiftWindow_mod (by rw [List.length_drop]; omega) h8.le (congrArg (·.toNat % _) hwin.symm)

/-! ## The search -/

/-- The elements `a` with the bytes `bs` in an otherwise empty window. -/
def searching (bs : List Byte) (a : Arch) : Arch :=
  { a with win := bs.foldl shiftWindow 0#64, fill := BitVec.ofNat 4 (min bs.length 8) }

theorem searching_nil {a : Arch} (hwin : a.win = 0#64) (hfill : a.fill = 0#4) : searching [] a = a := by
  simp only [searching, List.foldl_nil, List.length_nil, Nat.zero_min, ← hwin, ← hfill]

/-- A searched byte finds the pattern exactly if the bytes end in it (R165, R166). -/
theorem streamEffect_searching {a : Arch} (bs : List Byte) (b : Byte) (hst : a.st = .hunt) :
    (syncBytes a.sync <:+ bs ++ [b] →
      streamEffect b (searching bs a) (searching bs a) = .ok (syncFound (searching bs a) (searching bs a))) ∧
    (¬ syncBytes a.sync <:+ bs ++ [b] → streamEffect b (searching bs a) (searching bs a) = .ok (searching (bs ++ [b]) a)) := by
  have hfill : (searching bs a).fill.toNat = min bs.length 8 := Nat.mod_eq_of_lt (by omega)
  have hlen : min ((searching bs a).fill.toNat + 1) 8 = min (bs ++ [b]).length 8 := by
    rw [hfill, List.length_append, List.length_singleton]
    omega
  have hwin : shiftWindow (searching bs a).win b = (bs ++ [b]).foldl shiftWindow 0#64 := by simp [searching]
  have heffect : streamEffect b (searching bs a) (searching bs a) = .ok (huntByte b (searching bs a) (searching bs a)) := by
    simp only [streamEffect, searching, hst]
  have hfound : min (bs ++ [b]).length 8 = 8 ∧ (bs ++ [b]).foldl shiftWindow 0#64 = syncPattern (searching bs a).sync ↔
      syncBytes a.sync <:+ bs ++ [b] := by
    rw [syncBytes_suffix_iff 0#64, min_eq_right_iff]
    rfl
  have hcases := huntByte_cases b (searching bs a) (searching bs a)
  rw [hlen, hwin, ← and_assoc, hfound] at hcases
  rw [heffect]
  obtain ⟨hs, he⟩ | ⟨hno, he⟩ := hcases <;> rw [he]
  · exact ⟨fun _ => rfl, fun hno => absurd hs hno⟩
  · exact ⟨fun hs => absurd hs hno, fun _ => rfl⟩

/-- No initial part of a string ends in the pattern if no proper initial part of a longer one does. -/
theorem not_suffix_take_of_append_singleton {pattern bs : List Byte} {b : Byte}
    (hno : ∀ k, k < (bs ++ [b]).length → ¬ pattern <:+ (bs ++ [b]).take k) (k : Nat) (hk : k ≤ bs.length) :
    ¬ pattern <:+ bs.take k := by
  rw [← List.take_append_of_le_length hk (l₂ := [b])]
  exact hno k (by rw [List.length_append, List.length_singleton]; omega)

/-- While the bytes do not end in the pattern, the search goes on. -/
theorem takeBytes_searching {bs : List Byte} {a : Arch} (hst : a.st = .hunt) (hwin : a.win = 0#64) (hfill : a.fill = 0#4)
    (hno : ∀ k, k ≤ bs.length → ¬ syncBytes a.sync <:+ bs.take k) : takeBytes bs a = .ok (searching bs a) := by
  induction bs using List.reverseRecOn with
  | nil => rw [searching_nil hwin hfill]; rfl
  | append_singleton bs b ih =>
    have hbefore := not_suffix_take_of_append_singleton fun k hk => hno k hk.le
    have hlast : ¬ syncBytes a.sync <:+ bs ++ [b] := by
      have hall := hno _ le_rfl
      rwa [List.take_length] at hall
    rw [takeBytes_append (ih hbefore), takeBytes_cons ((streamEffect_searching bs b hst).2 hlast)]
    rfl

/-- The first byte that completes the pattern starts a frame (R166). -/
theorem takeBytes_sync_found {bs : List Byte} {a : Arch} (hst : a.st = .hunt) (hwin : a.win = 0#64) (hfill : a.fill = 0#4)
    (hno : ∀ k, k < bs.length → ¬ syncBytes a.sync <:+ bs.take k) (hfound : syncBytes a.sync <:+ bs) :
    ∃ m, m.sync = a.sync ∧ takeBytes bs a = .ok (syncFound m m) := by
  obtain rfl | ⟨bs, b, rfl⟩ := bs.eq_nil_or_concat'
  · exact absurd hfound.length_le (by simp [syncBytes, wordBytes])
  · have hbefore := takeBytes_searching hst hwin hfill (not_suffix_take_of_append_singleton hno)
    refine ⟨searching bs a, rfl, ?_⟩
    rw [takeBytes_append hbefore, takeBytes_cons ((streamEffect_searching bs b hst).1 hfound)]
    rfl

/-! ## A bad header -/

/-- A header that fails R172, taken from an empty window, is rejected at its flags byte, whatever its checksum. -/
theorem takeBytes_badHeader {a : Arch} {n c : Half} {i f : Byte} (hst : a.st = .hunt) (hwin : a.win = 0#64)
    (hfill : a.fill = 0#4) (hk : hdrOk n i f = false) :
    ∃ nx, takeBytes (header a.sync n c i f) a = .ok (reject nx) ∧
      (nx.fb, nx.rxLen, nx.rxCsum, nx.rxId, nx.rxFlags) = (a.fb, a.rxLen, a.rxCsum, a.rxId, a.rxFlags) := by
  have hsplit := header_append a.sync n c i f []
  rw [List.append_nil] at hsplit
  rw [hsplit, takeBytes_append (takeBytes_sync hst hwin hfill), takeBytes_append (takeBytes_fieldBytes n c i rfl rfl)]
  obtain ⟨-, he⟩ | ⟨hok, -, -⟩ | ⟨hok, -, -⟩ := flagsByte_cases f
      { syncFound a a with hLen := n, hCsum := c, hId := i, hcnt := 5#3, acc := accumulate 8 (sacc a.sync) (fieldBytes n c i) }
      { syncFound a a with hLen := n, hCsum := c, hId := i, hcnt := 5#3, acc := accumulate 8 (sacc a.sync) (fieldBytes n c i) }
  · exact ⟨_, takeBytes_cons (congrArg Except.ok he), rfl⟩
  · exact absurd hok (by simp [hk])
  · exact absurd hok (by simp [hk])

end Sys2Proof.Machine
end

