-- ==== Sys2Proof/Proofs/TakenByte.lean ====
section
/-! SUPPORT. S_BYTE as an operation (41_stream.md rules R163 to R174), its effect written in numbers. -/

namespace Sys2Proof.Machine

/-! ## Taken or not -/

/-- A byte that is not taken, or is taken in the cycle of an effective ABORT, changes no element (R161, R163, R212). -/
theorem exec_sByte_of_no_effect {s : State} (d : Byte) (h : inReady s.arch = false ∨ s.abort = true) :
    exec (.sByte d) s = .next (s.streamReply true) := by
  have hnone : ¬(inReady s.arch && !s.abort) = true := by obtain h | h := h <;> simp [h]
  exact if_neg hnone

/-- A byte that is taken and not dropped has its stream effect (R163). -/
theorem exec_sByte_of_effect {s : State} {d : Byte} {n : Arch} (hen : s.arch.en = true) (habort : s.abort = false)
    (hst : s.arch.st ≠ .hold) (h : streamEffect d s.arch s.next = .ok n) :
    exec (.sByte d) s = .next { s with next := n, out := { s.out with inReady := true, accepted := true } } := by
  have hready : inReady s.arch = true := by simp [inReady, hen, hst]
  simp [exec, execSByte, hready, habort, h, State.atEdge, State.streamReply]

/-! ## One rule for the bytes of a field, and for the judgement -/

/-- The five header bytes before the flags byte (R168 to R170): each is added at its frame offset and goes to its field. -/
theorem hdrByte_of_lt {pre : Arch} (b : Byte) (nx : Arch) (h : pre.hcnt.toNat < 5) :
    hdrByte b pre nx = .ok { nx with
      acc := accWith (8 + pre.hcnt.toNat) b pre
      hcnt := BitVec.ofNat 3 (pre.hcnt.toNat + 1)
      hLen :=
        if pre.hcnt.toNat = 0 then setHigh pre.hLen b else if pre.hcnt.toNat = 1 then setLow pre.hLen b else nx.hLen
      hCsum :=
        if pre.hcnt.toNat = 2 then setHigh pre.hCsum b else if pre.hcnt.toNat = 3 then setLow pre.hCsum b else nx.hCsum
      hId := if pre.hcnt.toNat = 4 then b else nx.hId } := by
  obtain hk | hk | hk | hk | hk : pre.hcnt.toNat = 0 ∨ pre.hcnt.toNat = 1 ∨ pre.hcnt.toNat = 2 ∨ pre.hcnt.toNat = 3 ∨
      pre.hcnt.toNat = 4 := by omega
  all_goals
    simp only [hdrByte, hk]
    rfl

/-- A frame is judged by its accumulator (R140, R174). -/
theorem judgeChecksum_eq (acc1 : Half) (f : Byte) (pre nx : Arch) :
    judgeChecksum acc1 f pre nx = if acc1 = 0xFFFF#16 then accept f pre nx else reject nx := by
  simp only [judgeChecksum, checksumGood, beq_iff_eq]

/-! ## The effects in numbers -/

/-- A byte's contribution (R138). -/
theorem contrib_eq_ofNat (k : Nat) (b : Byte) :
    contrib k b = if k % 2 = 0 then BitVec.ofNat 16 (b.toNat * 256) else BitVec.ofNat 16 b.toNat := by
  rw [← apply_ite (BitVec.ofNat 16), ← contrib_toNat, BitVec.ofNat_toNat, BitVec.setWidth_eq]

/-- The accumulator with a byte, at any offset of the same parity (R138, R139). -/
theorem accWith_eq_ocadd {j k : Nat} (hparity : j % 2 = k % 2) (b : Byte) (pre : Arch) :
    accWith j b pre = ocadd pre.acc (if k % 2 = 0 then BitVec.ofNat 16 (b.toNat * 256) else BitVec.ofNat 16 b.toNat) := by
  rw [accWith, contrib_eq_ofNat, hparity]

theorem setHigh_eq_ofNat (v : Half) (b : Byte) : setHigh v b = BitVec.ofNat 16 (b.toNat * 256 + v.toNat % 256) := by
  have hb := b.isLt
  rw [← BitVec.toNat_inj, setHigh, toNat_append, BitVec.toNat_ofNat, BitVec.extractLsb'_toNat]
  omega

theorem setLow_eq_ofNat (v : Half) (b : Byte) : setLow v b = BitVec.ofNat 16 (v.toNat / 256 * 256 + b.toNat) := by
  have hb := b.isLt
  have hv := v.isLt
  rw [← BitVec.toNat_inj, setLow, toNat_append, BitVec.toNat_ofNat, BitVec.extractLsb'_toNat, Nat.shiftRight_eq_div_pow]
  omega

/-- The pattern is found (R165), in numbers. -/
theorem shiftWindow_eq_syncPattern_iff (win : BitVec 64) (b : Byte) (sync : Word) :
    shiftWindow win b = syncPattern sync ↔ (win.toNat * 256 + b.toNat) % 2 ^ 64 = sync.toNat * 2 ^ 32 + sync.toNat := by
  rw [← BitVec.toNat_inj, shiftWindow_toNat, syncPattern, toNat_append]

theorem shiftWindow_eq_ofNat (win : BitVec 64) (b : Byte) :
    shiftWindow win b = BitVec.ofNat 64 ((win.toNat * 256 + b.toNat) % 2 ^ 64) := by
  rw [← shiftWindow_toNat, BitVec.ofNat_toNat, BitVec.setWidth_eq]

/-- The header domain check (R172), in numbers. -/
theorem hdrOk_iff_toNat (n : Half) (i f : Byte) :
    hdrOk n i f = true ↔ i.toNat ≤ 1 ∧
      ((f.toNat = 0x00 ∧ 1 ≤ n.toNat) ∨ (f.toNat = 0x40 ∧ n.toNat = 0) ∨ (f.toNat = 0x80 ∧ n.toNat = 0)) := by
  rw [hdrOk_iff]
  simp only [← BitVec.toNat_inj, BitVec.toNat_ofNat, Nat.reducePow, Nat.reduceMod, ne_eq]
  omega

end Sys2Proof.Machine
end

