-- ==== Sys2Proof/Proofs/Stream.lean ====
section
/-! The statements of the stream family (41_stream.md rules R160 to R180). -/

namespace Sys2Proof.Machine

/-- Settles O30: the outputs of any cycle are `cycleOutputs`. -/
theorem inReadyAndAccepted : Obligations.InReadyAndAccepted := by
  intro s t h
  obtain ⟨n, -, rfl⟩ := step_eq_next.1 h
  exact ⟨by simp [State.afterCycle, cycleOutputs_inReady, inReady, Bool.and_assoc], cycleOutputs_accepted s.arch _⟩

/-- Settles O31: a byte is taken only while `in_ready` is 1, and a byte not taken has no effect. -/
theorem untakenByteChangesNothing : Obligations.UntakenByteChangesNothing := by
  intro s s' t t' ha hp hi h h' hready
  obtain ⟨n, hn, rfl⟩ := step_eq_next.1 h
  obtain ⟨n', hn', rfl⟩ := step_eq_next.1 h'
  have hno : byteTaken (CycleIn.ofWord s.nextWord) s.arch = false := by
    rw [byteTaken_eq_accepted, cycleOutputs_accepted, show (cycleOutputs s.arch _).inReady = false from hready, Bool.and_false]
  rw [ha, hp, hi, cycleElements_not_offered _ hno, hn] at hn'
  exact Except.ok.inj hn'

/-- Settles O35: neither channel's idle operation changes an element. -/
theorem idleCycleKeepsElements : Obligations.IdleCycleKeepsElements := by
  intro s h
  exact ⟨_, step_eq_next.2 ⟨_, cycleElements_of_idle s.params s.arch h, rfl⟩, rfl⟩

/-- Settles O37: the byte of an ABORT cycle is dropped, and in HOLD, where RELEASE takes effect, none is taken. -/
theorem commandsReturnToHunt : Obligations.CommandsReturnToHunt := by
  intro s i h
  refine ⟨_, step_eq_next.2 ⟨_, cycleElements_of_command s.params h, rfl⟩, rfl, ?_, ?_⟩
  · change (cycleOutputs s.arch i).accepted = _
    simp [cycleOutputs_accepted, cycleOutputs_inReady, rst_of_command h, inReady, Bool.and_assoc]
  · simp [inReady, State.afterCycle, backToHunt]

/-- Settles O43: with `en = 0` no byte is taken, and without a command a bus operation leaves the parser. -/
theorem pauseKeepsParser : Obligations.PauseKeepsParser := by
  intro s t h hen i hr habort hrel
  obtain ⟨hr', -⟩ | ⟨-, ⟨htaken, -⟩, -⟩ | ⟨-, -, he⟩ := step_cases h
  · exact absurd hr' (by simp [i, hr])
  · exact absurd htaken (by simp [byteTaken, hen])
  · obtain ⟨_, _, _, _, _, hsame⟩ := (busElements_sameParser hr hrel habort).exists_eq
    rw [he, hsame]
    exact ⟨rfl, rfl, rfl, rfl, rfl, rfl, rfl, rfl, rfl, rfl, rfl⟩

/-- Settles O45: a run is the chain of its cycles' elements, and an idle cycle leaves the chain as it is. -/
theorem idleCyclesDoNotMatter : Obligations.IdleCyclesDoNotMatter := by
  intro ws s t h
  rw [exists_runWords_iff, runElements_filter_idle]
  exact exists_runWords_iff.1 ⟨t, h, rfl⟩

/-- Settles O58: the window is full and equal to the pattern exactly when the bytes taken so far end in it. -/
theorem syncSearchFindsFirstPattern : Obligations.SyncSearchFindsFirstPattern := by
  intro bs s hst hwin hfill hen pattern hno
  by_cases hfound : pattern <:+ bs
  · obtain ⟨m, hm, htake⟩ := takeBytes_sync_found hst hwin hfill hno hfound
    obtain ⟨t, ht, ha⟩ := exists_runWords_byteWords hen htake
    exact ⟨t, ht, absurd hfound, fun _ => by rw [ha, ← hm]; exact ⟨rfl, rfl, rfl⟩⟩
  · have hall : ∀ k, k ≤ bs.length → ¬ pattern <:+ bs.take k := fun k hk => by
      obtain rfl | hlt := hk.eq_or_lt
      · rwa [List.take_length]
      · exact hno k hlt
    obtain ⟨t, ht, ha⟩ := exists_runWords_byteWords hen (takeBytes_searching hst hwin hfill hall)
    exact ⟨t, ht, fun _ => by rw [ha]; exact hst, fun h => absurd h hfound⟩

/-- Settles O60: the fields are collected, and the flags byte rejects before any checksum is looked at. -/
theorem badHeaderIsRejected : Obligations.BadHeaderIsRejected := by
  intro s n c i f hst hwin hfill hen hk
  obtain ⟨nx, htake, hkept⟩ := takeBytes_badHeader (c := c) hst hwin hfill hk
  obtain ⟨t, ht, ha⟩ := exists_runWords_byteWords hen htake
  simp only [Prod.mk.injEq] at hkept
  exact ⟨t, ht, by rw [ha]; exact ⟨rfl, rfl, rfl, hkept⟩⟩

/-- Settles O15: S_IDLE offers no byte. -/
theorem streamIdleCompletes : Obligations.StreamIdleCompletes := by
  intro s
  simp [exec, execSIdle, State.streamReply, inReady]

/-- Settles O22: a byte has an effect only if it is taken and not dropped. -/
theorem byteNotTakenOrDropped : Obligations.ByteNotTakenOrDropped := by
  intro s d
  constructor
  · intro h
    have hready : inReady s.arch = false := by obtain h | h := h <;> simp [inReady, h]
    rw [exec_sByte_of_no_effect d (.inl hready), State.streamReply, hready]
    rfl
  · intro hen hst habort
    have hready : inReady s.arch = true := by simp [inReady, hen, hst]
    rw [exec_sByte_of_no_effect d (.inr habort), State.streamReply, hready]
    rfl

/-- Settles O23: the window is shifted, and tested with the byte in it. -/
theorem huntByteCompletes : Obligations.HuntByteCompletes := by
  intro s d hen habort hst win1 fill1
  refine exec_sByte_of_effect hen habort (by simp [hst]) ?_
  have heffect : streamEffect d s.arch s.next = .ok (huntByte d s.arch s.next) := by simp only [streamEffect, hst]
  rw [heffect]
  simp only [huntByte, shiftWindow_eq_syncPattern_iff]
  rw [shiftWindow_eq_ofNat]
  rfl

/-- Settles O24: each of the five bytes is added at its offset, which has the parity of `hcnt`, and goes to its field. -/
theorem headerFieldByteCompletes : Obligations.HeaderFieldByteCompletes := by
  intro s d hen habort hst hlt k added high low
  refine exec_sByte_of_effect hen habort (by simp [hst]) ?_
  have hacc : accWith (8 + s.arch.hcnt.toNat) d s.arch = ocadd s.arch.acc added := accWith_eq_ocadd (by omega) d s.arch
  simp only [streamEffect, hst, hdrByte_of_lt d s.next hlt, hacc, setHigh_eq_ofNat, setLow_eq_ofNat]
  rfl

/-- Settles O25: the header passes R172 or not, and a control frame is complete with it. -/
theorem flagsByteCompletes : Obligations.FlagsByteCompletes := by
  intro s d hen habort hst hc n acc1 nx idOk
  refine exec_sByte_of_effect hen habort (by simp [hst]) ?_
  have heffect : streamEffect d s.arch s.next = .ok (flagsByte d s.arch s.next) := by simp [streamEffect, hst, hdrByte, hc]
  have hacc : accWith 13 d s.arch = acc1 := accWith_eq_ocadd (k := 13) rfl d s.arch
  have hzero : s.arch.hLen = 0#16 ↔ n = 0 := BitVec.toNat_inj.symm
  have hk : hdrOk s.arch.hLen s.arch.hId d = true ↔
      (idOk ∧ d = 0x00#8 ∧ 1 ≤ n) ∨ (idOk ∧ (d = 0x40#8 ∨ d = 0x80#8) ∧ n = 0) := by
    simp only [hdrOk_iff_toNat, ← BitVec.toNat_inj, BitVec.toNat_ofNat, Nat.reducePow, Nat.reduceMod, idOk, n]
    omega
  rw [heffect]
  congr 1
  obtain ⟨hbad, he⟩ | ⟨hok, h0, he⟩ | ⟨hok, h0, he⟩ := flagsByte_cases d s.arch s.next <;> rw [he, hacc]
  · obtain ⟨hdata, hcontrol⟩ := not_or.1 (mt hk.2 (by simp [hbad]))
    rw [if_neg hdata, if_neg fun h => hcontrol ⟨h.1, h.2.1, h.2.2.1⟩]
    rfl
  · have hn : n = 0 := hzero.1 h0
    have hdata : ¬(idOk ∧ d = 0x00#8 ∧ 1 ≤ n) := fun h => by omega
    obtain ⟨hid, hflags, -⟩ := (hk.1 hok).resolve_left hdata
    rw [if_neg hdata, judgeChecksum_eq]
    simp only [hid, hflags, hn, true_and]
    rfl
  · have hdata := (hk.1 hok).resolve_right fun h => h0 (hzero.2 h.2.2)
    rw [if_pos hdata]

/-- Settles O26: the byte goes to FB and into the sum, and the last one has the frame judged. -/
theorem payloadByteCompletes : Obligations.PayloadByteCompletes := by
  intro s d hen habort hst hlt p acc1 nx
  refine exec_sByte_of_effect hen habort (by simp [hst]) ?_
  have hsize : s.arch.pcnt.toNat < fbSize := hlt
  have hacc : accWith (14 + s.arch.pcnt.toNat) d s.arch = acc1 := accWith_eq_ocadd (by omega) d s.arch
  have hpcnt : s.arch.pcnt + 1#16 = BitVec.ofNat 16 (p + 1) := by rw [BitVec.ofNat_add, BitVec.ofNat_toNat, BitVec.setWidth_eq]
  simp only [streamEffect, hst, payByte, hsize, if_true, hacc, hpcnt, judgeChecksum_eq, ← apply_ite Except.ok]
  rfl

/-- Settles O56: the bytes the conditions of R172 name, as numbers. -/
theorem headerDomainTable : Obligations.HeaderDomainTable := hdrOk_iff_toNat

end Sys2Proof.Machine
end

