-- ==== Sys2Proof/Proofs/BusValues.lean ====
section
/-! SUPPORT. The values on the bus in numbers (42_bus.md rules R202 to R218): what the registers and the FB window read as, and the
fields a write picks out of `wd`. -/

namespace Sys2Proof.Machine

/-! ## What a register reads as -/

section Value

variable (a : Arch)

theorem ctrlValue_toNat : (ctrlValue a).toNat = a.en.toNat := by
  rw [ctrlValue, BitVec.toNat_setWidth_of_le (by decide), BitVec.toNat_ofBool]

/-- STATUS is REJ in bit 5, READY in bit 4 and the parser state in bits 1:0 (R209). -/
theorem statusValue_toNat : (statusValue a).toNat = 32 * a.rej.toNat + 16 * (readyFlag a).toNat + a.st.code.toNat := by
  rw [statusValue, BitVec.toNat_setWidth_of_le (by decide), toNat_append, toNat_append, toNat_append, BitVec.toNat_ofBool,
    BitVec.toNat_ofBool, BitVec.toNat_ofNat]
  omega

theorem rxInfoValue_toNat : (rxInfoValue a).toNat = 65536 * a.rxLen.toNat + 256 * a.rxId.toNat + a.rxFlags.toNat := by
  rw [rxInfoValue, toNat_append, toNat_append]
  omega

theorem rxCsumValue_toNat : (rxCsumValue a).toNat = a.rxCsum.toNat :=
  BitVec.toNat_setWidth_of_le (by decide)

theorem irqEnValue_toNat : (irqEnValue a).toNat = 2 * a.ieRej.toNat + a.ieReady.toNat := by
  rw [irqEnValue, BitVec.toNat_setWidth_of_le (by decide), toNat_append, BitVec.toNat_ofBool, BitVec.toNat_ofBool]
  omega

end Value

/-- A reply of a word, named by its number. -/
theorem exec_reply_of_toNat {i : Instr} {s : State} {v : Word} {n : Nat} (hv : v.toNat = n) (h : exec i s = .next (s.busReply v)) :
    exec i s = .next { s with out := { s.out with busRdata := BitVec.ofNat 32 n, busErr := false } } := by
  rw [← hv, BitVec.ofNat_toNat, BitVec.setWidth_eq]
  exact h

/-! ## The frame buffer window -/

theorem fbIndex_of_lt {a : BusAddr} (h : a.toNat < 0x10000) : fbIndex a = a.toNat := by
  rw [fbIndex, BitVec.extractLsb'_toNat, Nat.shiftRight_zero, Nat.mod_eq_of_lt h]

/-- Byte `k` of the word at `p`, from the most significant, is the window's byte `p + k` (R74, R218). -/
theorem fbWord_byte (m : Memory) (p : Nat) {k : Nat} (hk : k < 4) :
    (fbWord m p).extractLsb' (8 * (3 - k)) 8 = fbWindowByte m (p + k) := by
  have h0 := (fbWindowByte m p).isLt
  have h1 := (fbWindowByte m (p + 1)).isLt
  have h2 := (fbWindowByte m (p + 2)).isLt
  have h3 := (fbWindowByte m (p + 3)).isLt
  rw [← BitVec.toNat_inj, BitVec.extractLsb'_toNat, Nat.shiftRight_eq_div_pow, fbWord, toNat_append, toNat_append, toNat_append]
  obtain rfl | rfl | rfl | rfl : k = 0 ∨ k = 1 ∨ k = 2 ∨ k = 3 := by omega
  · change _ = (fbWindowByte m p).toNat
    omega
  all_goals omega

/-- The bytes of FB stand at the addresses up to 65534 (R46, R74). -/
theorem fbWindowByte_eq (m : Memory) (j : Nat) : fbWindowByte m j = if j ≤ 65534 then fbRead m j else 0#8 :=
  if_congr Nat.lt_succ_iff rfl rfl

/-! ## The fields of the write data -/

/-- A field of one bit, in numbers (R105). -/
theorem getLsbD_eq_decide_toNat {w : Nat} (x : BitVec w) (k : Nat) : x.getLsbD k = decide (x.toNat / 2 ^ k % 2 = 1) := by
  rw [← BitVec.testBit_toNat, Nat.testBit_eq_decide_div_mod_eq]

theorem getLsbD_zero_eq_decide_toNat {w : Nat} (x : BitVec w) : x.getLsbD 0 = decide (x.toNat % 2 = 1) := by
  rw [getLsbD_eq_decide_toNat, Nat.pow_zero, Nat.div_one]

theorem getLsbD_one_eq_decide_toNat {w : Nat} (x : BitVec w) : x.getLsbD 1 = decide (x.toNat / 2 % 2 = 1) :=
  getLsbD_eq_decide_toNat x 1

/-- A CMD.RELEASE takes effect in HOLD only (R212). -/
theorem releaseEffective_eq (wd : Word) (a : Arch) : releaseEffective wd a = decide (wd.toNat % 2 = 1 ∧ a.st = .hold) := by
  rw [releaseEffective, wdRelease, getLsbD_zero_eq_decide_toNat, Bool.decide_and]

/-- A CMD.ABORT takes effect outside HOLD only (R212). -/
theorem abortEffective_eq (wd : Word) (a : Arch) : abortEffective wd a = decide (wd.toNat / 2 % 2 = 1 ∧ a.st ≠ .hold) := by
  rw [abortEffective, wdAbort, getLsbD_one_eq_decide_toNat, Bool.decide_and, decide_not]

/-- WR_CMD in one piece: the window is emptied if a command takes effect (R212). -/
theorem exec_wrCmd (wd : Word) (s : State) :
    exec (.wrCmd wd) s = .next (((s.busReply 0#32).driveAbort (abortEffective wd s.arch)).atEdge fun n =>
      if releaseEffective wd s.arch || abortEffective wd s.arch then backToHunt n else n) := by
  simp only [exec, execWrCmd]
  split <;> rfl

end Sys2Proof.Machine
end

