-- ==== Sys2Proof/Proofs/Bus.lean ====
section
/-! The statements of the bus family (42_bus.md rules R200 to R221). -/

namespace Sys2Proof.Machine

/-- Settles O16: each read replies with its register's value, and each register has its own address. -/
theorem registerReadsComplete : Obligations.RegisterReadsComplete := by
  intro s a reads
  have hstatus : (statusValue s.arch).toNat =
      32 * s.arch.rej.toNat + (match s.arch.st with | .hunt => 0 | .hdr => 1 | .pay => 2 | .hold => 16 + 3) := by
    rw [statusValue_toNat]
    cases hst : s.arch.st <;> simp [readyFlag, hst, ParserState.code, Nat.add_assoc]
  exact ⟨rfl, exec_reply_of_toNat (ctrlValue_toNat _) rfl, rfl, exec_reply_of_toNat hstatus rfl,
    exec_reply_of_toNat (v := s.arch.sync) rfl rfl, exec_reply_of_toNat (rxInfoValue_toNat _) rfl,
    exec_reply_of_toNat (rxCsumValue_toNat _) rfl, exec_reply_of_toNat (irqEnValue_toNat _) rfl, rfl,
    rfl, rfl, rfl, rfl, rfl, rfl, rfl, decodeBus_inputs (b := .rdRsvd a) rfl⟩

/-- Settles O17: the word is `fbWord` at the address itself, which bit 16 does not change in the window. -/
theorem frameBufferReadCompletes : Obligations.FrameBufferReadCompletes := by
  intro s a ha
  obtain ⟨-, hlt⟩ : a.toNat % 4 = 0 ∧ a.toNat < 0x10000 := by simpa [wfFbAddr] using ha
  refine ⟨decodeBus_inputs (b := .rdFb a) rfl ha, fbWord s.arch.fb (fbIndex a), rfl, fun k hk => ?_⟩
  rw [fbIndex_of_lt hlt, fbWord_byte _ _ hk, fbWindowByte_eq]

/-- Settles O18: each field is a bit of `wd`, or the whole of it. -/
theorem registerWritesComplete : Obligations.RegisterWritesComplete := by
  intro s wd writes
  have hclear : (!wdClearRej wd) = decide (wd.toNat / 32 % 2 = 0) := by
    rw [wdClearRej, getLsbD_eq_decide_toNat, ← decide_not, decide_eq_decide]
    omega
  refine ⟨?_, ?_, rfl, ?_⟩ <;> simp only [writes]
  · rw [← getLsbD_zero_eq_decide_toNat]
    rfl
  · rw [← hclear]
    rfl
  · rw [← getLsbD_zero_eq_decide_toNat, ← getLsbD_one_eq_decide_toNat]
    rfl

/-- Settles O19: each of these writes replies 0 and has no effect at the edge. -/
theorem ignoredWritesComplete : Obligations.IgnoredWritesComplete := by
  intro s a wd
  refine ⟨fun i hi => ?_, rfl, rfl, decodeBus_inputs (b := .wrRsvd a wd) rfl⟩
  simp only [List.mem_cons, List.not_mem_nil, or_false] at hi
  obtain rfl | rfl | rfl := hi <;> rfl

/-- Settles O20: RELEASE takes effect in HOLD only and ABORT outside it only, and both empty the window. -/
theorem commandWriteCompletes : Obligations.CommandWriteCompletes := by
  intro s wd release abort
  have heffect : (releaseEffective wd s.arch || abortEffective wd s.arch) = true ↔ release ∨ abort := by
    rw [Bool.or_eq_true, releaseEffective_eq, abortEffective_eq, decide_eq_true_iff, decide_eq_true_iff]
  simp only [exec_wrCmd, heffect]
  rw [abortEffective_eq]
  rfl

/-- Settles O21: each of these accesses raises BusError, which leaves the elements. -/
theorem refusedAccessesComplete : Obligations.RefusedAccessesComplete := by
  intro s a wd
  refine ⟨fun i hi => ?_, decodeBus_inputs (b := .wrFb a wd) rfl, fun h4 => ?_⟩
  · simp only [List.mem_cons, List.not_mem_nil, or_false] at hi
    obtain rfl | rfl | rfl := hi <;> rfl
  · have hmis : wfMisalignedAddr a = true := decide_eq_true h4
    exact ⟨decodeBus_inputs (b := .rdMisaligned a) rfl hmis, decodeBus_inputs (b := .wrMisaligned a wd) rfl hmis⟩

end Sys2Proof.Machine
end

