-- ==== Sys2Proof/Proofs/BusErrors.lean ====
section
/-! SUPPORT. The error response of the bus (60_exceptions.md rule R241): which accesses raise it, and that a cycle with such an access
leaves what it leaves with the bus idle. Beside it: what `irq` is (R250), and what a bus operation leaves in
REJ (R246). -/

namespace Sys2Proof.Machine

variable {a : Arch} {i : CycleIn}

/-! ## Which accesses raise it -/

/-- The causes of R241. -/
theorem decodeBusEffect_busErr_iff (a : Arch) (i : CycleIn) :
    (decodeBusEffect a i).2.1 = true ↔
      i.busEn = true ∧ (i.busAddr.toNat % 4 ≠ 0 ∨ (i.busWe = true ∧ i.busAddr.toNat < 0x10000)) := by
  cases he : i.busEn
  · simp [decodeBusEffect, he]
  by_cases h4 : i.busAddr.toNat % 4 ≠ 0
  · simp [decodeBusEffect, he, h4]
  by_cases hlt : i.busAddr.toNat < 0x10000
  · cases hw : i.busWe <;> simp [decodeBusEffect, he, h4, hlt, hw]
  · simp only [decodeBusEffect, he, h4, hlt, and_false, or_self, if_false, Bool.not_true, Bool.false_eq_true]
    split_ifs <;> rfl

/-- An access that raises it reads 0 and has no effect at the edge. -/
theorem decodeBusEffect_of_busErr (h : (decodeBusEffect a i).2.1 = true) : decodeBusEffect a i = (0#32, true, .none) := by
  obtain ⟨he, h4 | ⟨hw, hlt⟩⟩ := (decodeBusEffect_busErr_iff a i).1 h
  · simp [decodeBusEffect, he, h4]
  · simp [decodeBusEffect, he, hw, hlt]

/-! ## The outputs of a cycle -/

/-- `irq` does not depend on the inputs (R250). -/
@[simp] theorem cycleOutputs_irq (a : Arch) (i : CycleIn) : (cycleOutputs a i).irq = irqLine a := by
  cases hr : i.rst <;> simp [cycleOutputs, hr]

/-- `irq` in any cycle is the function of the state before the edge (R250). -/
theorem step_irq {s t : State} (h : step s = .next t) : t.out.irq = irqLine s.arch := by
  obtain ⟨n, -, rfl⟩ := step_eq_next.1 h
  exact cycleOutputs_irq _ _

/-- A reset cycle answers no access (R270). -/
theorem cycleOutputs_busErr (a : Arch) (i : CycleIn) : (cycleOutputs a i).busErr = (!i.rst && (decodeBusEffect a i).2.1) := by
  cases hr : i.rst <;> simp [cycleOutputs, hr]

theorem cycleOutputs_busErr_iff (a : Arch) (i : CycleIn) :
    (cycleOutputs a i).busErr = true ↔ i.rst = false ∧ (decodeBusEffect a i).2.1 = true := by
  rw [cycleOutputs_busErr, Bool.and_eq_true, Bool.not_eq_true']

/-- With `bus_err` the bus reads 0 (R241). -/
theorem cycleOutputs_busRdata_of_busErr (h : (cycleOutputs a i).busErr = true) : (cycleOutputs a i).busRdata = 0#32 := by
  obtain ⟨hr, herr⟩ := (cycleOutputs_busErr_iff a i).1 h
  simp [cycleOutputs, hr, decodeBusEffect_of_busErr herr]

/-! ## Accesses without an effect -/

/-- An ABORT that takes effect is an effect of the bus (R212). -/
theorem abortsNow_of_no_effect (h : (decodeBusEffect a i).2.2 = .none) : abortsNow i a = false := by
  rw [Bool.eq_false_iff]
  intro habort
  have hcmd : i.busEn = true ∧ i.busWe = true ∧ i.busAddr = 0x10004#17 := by simp_all [abortsNow]
  exact nomatch h.symm.trans ((decodeBusEffect_eq_wrCmd a i).2 hcmd)

/-- Such an access leaves no trace in the elements: the cycle is its reset or its taken byte alone. -/
theorem cycleElements_of_no_effect (p : Params) (h : (decodeBusEffect a i).2.2 = .none) :
    cycleElements p a i =
      if i.rst then .ok (resetElements p a) else if byteTaken i a then streamEffect i.inData a a else .ok a := by
  have hbus : busElements a i = a := by rw [busElements, h]; rfl
  simp only [cycleElements, hbus, abortsNow_of_no_effect h, Bool.not_false, Bool.and_true]

/-- BusError suppresses the access and nothing else (R241). -/
theorem cycleElements_busIdle_of_busErr (p : Params) (h : (decodeBusEffect a i).2.1 = true) :
    cycleElements p a { i with busEn := false } = cycleElements p a i := by
  have hnone : (decodeBusEffect a i).2.2 = .none := by rw [decodeBusEffect_of_busErr h]
  rw [cycleElements_of_not_write p a (by simp), cycleElements_of_no_effect p hnone]
  rfl

/-! ## The reject flag -/

/-- Of the bus operations only a STATUS write with bit 5 changes REJ, and clears it (R210). -/
theorem busElements_rej (a : Arch) (hr : i.rst = false) :
    (busElements a i).rej = (a.rej && !(writesReg i 0x10008#17 && i.busWdata.getLsbD 5)) := by
  rw [busElements_eq a hr]
  cases writesReg i 0x10008#17 <;> simp

end Sys2Proof.Machine
end

