-- ==== Sys2Proof/Proofs/Exceptions.lean ====
section
/-! The statements of the exceptions family (60_exceptions.md rules R240 to R251). -/

namespace Sys2Proof.Machine

/-- Settles O32: `irq` is `irqLine` of the elements before the edge, and a reset clears both enables. -/
theorem irqIsLevel : Obligations.IrqIsLevel := by
  intro s t h
  refine ⟨step_irq h, fun u hr hu => ?_⟩
  rw [step_of_rst hr] at h
  cases h
  exact step_irq hu

/-- Settles O33: an access that raises BusError has no effect at the edge, and the stream outputs do not depend on the bus. -/
theorem busErrorRule : Obligations.BusErrorRule := by
  intro s t h i
  obtain ⟨n, hn, rfl⟩ := step_eq_next.1 h
  refine ⟨?_, cycleOutputs_busRdata_of_busErr, fun s' t' ha hp hi h' herr => ?_⟩
  · exact (cycleOutputs_busErr_iff s.arch i).trans (and_congr_right' (decodeBusEffect_busErr_iff s.arch i))
  · obtain ⟨n', hn', rfl⟩ := step_eq_next.1 h'
    obtain ⟨-, hbus⟩ := (cycleOutputs_busErr_iff s.arch i).1 herr
    rw [ha, hp, hi, cycleElements_busIdle_of_busErr _ hbus, hn] at hn'
    refine ⟨Except.ok.inj hn', ?_⟩
    simp only [State.afterCycle, ha, hi, cycleOutputs_accepted, cycleOutputs_inReady]
    exact ⟨rfl, rfl⟩

/-- Settles O38: the bus operation may clear REJ, and a reject, applied after it, sets it. -/
theorem rejectFlagRule : Obligations.RejectFlagRule := by
  intro s t h i
  obtain ⟨hr, he⟩ | ⟨hr, ⟨htaken, habort⟩, he⟩ | ⟨hr, hno, he⟩ := step_cases h
  · simp [i, he, resetElements, hr]
  · simp [i, streamEffect_rej he, busElements_rej _ hr, hr, htaken, habort, Bool.or_comm]
  · have hnone : (byteTaken i s.arch && !abortsNow i s.arch) = false := by simpa using hno
    simp [i, he, busElements_rej _ hr, hr, hnone]

end Sys2Proof.Machine
end

