-- ==== Sys2Proof/Proofs/ReferenceStep.lean ====
section
/-! SUPPORT. The step of 70_reset_and_hazards.md rule R280 in one piece: what a stream byte does to the parser does not depend on the
control registers written beside it, so applying the stream effect before the bus effect, as R280 does, leaves the same elements. -/

namespace Sys2Proof.Machine

/-! ## A cycle with one operation -/

/-- The operation alone, then the edge. -/
theorem runCycle_single (i : Instr) (s : State) :
    runCycle [i] s = andThen (exec i s.beginCycle) fun u => .next u.clockEdge := by
  simp only [runCycle, runOps]
  cases exec i s.beginCycle <;> rfl

/-! ## A stream byte beside register writes -/

section Byte

variable {b : Byte} {pre nx nx' a' : Arch}

theorem huntByte_sameParser (b : Byte) (pre : Arch) (hn : SameParser nx nx') :
    SameParser (huntByte b pre nx) (huntByte b pre nx') := by
  obtain ⟨_, _, _, _, _, rfl⟩ := hn.exists_eq
  simp only [huntByte]
  split <;> rfl

theorem judgeChecksum_sameParser (acc1 : Half) (f : Byte) (pre : Arch) (hn : SameParser nx nx') :
    SameParser (judgeChecksum acc1 f pre nx) (judgeChecksum acc1 f pre nx') := by
  obtain ⟨_, _, _, _, _, rfl⟩ := hn.exists_eq
  rw [judgeChecksum, judgeChecksum]
  split <;> rfl

theorem flagsByte_sameParser (b : Byte) (pre : Arch) (hn : SameParser nx nx') :
    SameParser (flagsByte b pre nx) (flagsByte b pre nx') := by
  obtain ⟨_, _, _, _, _, rfl⟩ := hn.exists_eq
  simp only [flagsByte]
  split
  · split
    · exact judgeChecksum_sameParser _ _ _ rfl
    · rfl
  · rfl

theorem hdrByte_sameParser (hn : SameParser nx nx') (h : hdrByte b pre nx' = .ok a') :
    ∃ a, hdrByte b pre nx = .ok a ∧ SameParser a a' := by
  obtain ⟨_, _, _, _, _, rfl⟩ := hn.exists_eq
  obtain ⟨hc, rfl⟩ | ⟨hc, rfl⟩ | ⟨hc, rfl⟩ | ⟨hc, rfl⟩ | ⟨hc, rfl⟩ | ⟨hc, rfl⟩ := hdrByte_cases h
  iterate 5
    refine ⟨_, by simp only [hdrByte, hc]; rfl, ?_⟩
    rfl
  exact ⟨flagsByte b pre nx, by simp only [hdrByte, hc]; rfl, flagsByte_sameParser b pre rfl⟩

theorem payByte_sameParser (hn : SameParser nx nx') (h : payByte b pre nx' = .ok a') :
    ∃ a, payByte b pre nx = .ok a ∧ SameParser a a' := by
  obtain ⟨_, _, _, _, _, rfl⟩ := hn.exists_eq
  obtain ⟨hlt, ⟨hlast, rfl⟩ | ⟨hmore, rfl⟩⟩ := payByte_cases h
  all_goals refine ⟨_, by simp only [payByte, *, if_true, if_false]; rfl, ?_⟩
  · exact judgeChecksum_sameParser _ _ _ rfl
  · rfl

/-- A byte does to the parser what it does with no register written beside it (R163 to R177). -/
theorem streamEffect_sameParser (hn : SameParser nx nx') (h : streamEffect b pre nx' = .ok a') :
    ∃ a, streamEffect b pre nx = .ok a ∧ SameParser a a' := by
  obtain ⟨hst, rfl⟩ | ⟨hst, he⟩ | ⟨hst, he⟩ | ⟨hst, rfl⟩ := streamEffect_cases h
  all_goals simp only [streamEffect, hst]
  · exact ⟨_, rfl, huntByte_sameParser b pre hn⟩
  · exact hdrByte_sameParser hn he
  · exact payByte_sameParser hn he
  · exact ⟨_, rfl, hn⟩

/-- The elements R280 computes first, the stream effect alone, have the parser of any defined effect. -/
theorem streamElements_sameParser (hn : SameParser pre nx) (h : streamEffect b pre nx = .ok a') :
    SameParser (streamElements b pre) a' := by
  obtain ⟨a, ha, hsame⟩ := streamEffect_sameParser hn h
  rw [streamElements, ha]
  exact hsame

end Byte

/-! ## The elements of R280 -/

/-- `s1` of R280 once CMD is served: the stream effect of a taken byte, then ABORT or RELEASE. -/
def referenceParser (a : Arch) (i : CycleIn) : Arch :=
  let s1 := if byteTaken i a && !abortsNow i a then streamElements i.inData a else a
  if abortsNow i a || releasesNow i a then backToHunt s1 else s1

/-- The elements `n` with the control registers as R280 leaves them, each by its own condition; `rejEvent` says that REJECT was
performed. -/
def writeControl (a : Arch) (i : CycleIn) (rejEvent : Bool) (n : Arch) : Arch :=
  { n with
    rej := (a.rej && !(writesReg i 0x10008#17 && i.busWdata.getLsbD 5)) || rejEvent
    en := if writesReg i 0x10000#17 = true then i.busWdata.getLsbD 0 else n.en
    sync := if writesReg i 0x1000C#17 = true then i.busWdata else n.sync
    ieReady := if writesReg i 0x10018#17 = true then i.busWdata.getLsbD 0 else n.ieReady
    ieRej := if writesReg i 0x10018#17 = true then i.busWdata.getLsbD 1 else n.ieRej }

/-- A bus effect is decoded exactly if its register is written. -/
theorem decide_decodeBusEffect_eq {e : BusEffect} (he : e ≠ .none) (a : Arch) {i : CycleIn} (hr : i.rst = false) :
    decide ((decodeBusEffect a i).2.2 = e) = writesReg i e.register := by
  rw [Bool.eq_iff_iff, decide_eq_true_iff, decodeBusEffect_eq_iff he a hr]

/-- The elements R280 gives outside reset, its `s2` named `referenceParser` and its last four updates `writeControl`. -/
theorem referenceStep_elements (p : Params) (a : Arch) {i : CycleIn} (hr : i.rst = false) :
    (referenceStep p a i).1 =
      writeControl a i (byteTaken i a && !abortsNow i a && rejectsNow i.inData a) (referenceParser a i) := by
  have hwrites {e : BusEffect} (he : e ≠ .none) := decide_decodeBusEffect_eq he a hr
  rw [referenceStep, if_neg (by simp [hr])]
  extract_lets ready taken bus effect abort release s1 rejEvent s2 s3 s4 s5 s6
  have hctrl : decide (effect = .wrCtrl) = writesReg i 0x10000#17 := hwrites (by simp)
  have hcmd : decide (effect = .wrCmd) = writesReg i 0x10004#17 := hwrites (by simp)
  have hstatus : decide (effect = .wrStatus) = writesReg i 0x10008#17 := hwrites (by simp)
  have hsync : decide (effect = .wrSync) = writesReg i 0x1000C#17 := hwrites (by simp)
  have hirq : decide (effect = .wrIrqEn) = writesReg i 0x10018#17 := hwrites (by simp)
  have htaken : taken = byteTaken i a := inValid_and_inReady i a hr
  have habort : abort = abortsNow i a := by simp only [abort, hcmd]; rfl
  have hrelease : release = releasesNow i a := by simp only [release, hcmd]; rfl
  have hs2 : s2 = referenceParser a i := by simp only [s2, s1, referenceParser, htaken, habort, hrelease]; rfl
  have hrej : rejEvent = (byteTaken i a && !abortsNow i a && rejectsNow i.inData a) := by simp only [rejEvent, htaken, habort]
  rw [← hs2, ← hrej, writeControl, ← hctrl, ← hstatus, ← hsync, ← hirq]
  clear_value effect
  cases effect <;> rfl

/-- In a reset cycle R280 gives the reset values (R270). -/
theorem referenceStep_elements_of_rst (p : Params) (a : Arch) {i : CycleIn} (hr : i.rst = true) :
    (referenceStep p a i).1 = resetElements p a := by
  rw [referenceStep, if_pos hr]
  rfl

/-- The outputs of R280 are those of the cycle. -/
theorem referenceStep_outputs (p : Params) (a : Arch) (i : CycleIn) : (referenceStep p a i).2 = cycleOutputs a i := by
  rw [referenceStep, cycleOutputs]
  split <;> rfl

/-! ## The cycle against R280 -/

/-- The stream effect alone keeps the control registers. -/
theorem streamElements_control (b : Byte) (a : Arch) :
    ((streamElements b a).en, (streamElements b a).sync, (streamElements b a).ieReady, (streamElements b a).ieRej) =
      (a.en, a.sync, a.ieReady, a.ieRej) := by
  rw [streamElements]
  cases he : streamEffect b a a with
  | error f => rfl
  | ok n =>
    obtain ⟨hen, hsync, hready, hrej, -⟩ := streamEffect_frame he
    simp only [hen, hsync, hready, hrej]

/-- The stream effect and CMD keep the control registers. -/
theorem referenceParser_control (a : Arch) (i : CycleIn) :
    ((referenceParser a i).en, (referenceParser a i).sync, (referenceParser a i).ieReady, (referenceParser a i).ieRej) =
      (a.en, a.sync, a.ieReady, a.ieRej) := by
  simp only [referenceParser, backToHunt_ite]
  split
  · exact streamElements_control _ a
  · rfl

/-- The parser after a cycle is that of R280, though the cycle performs the bus operation first. -/
theorem step_sameParser {s t : State} (hr : (CycleIn.ofWord s.nextWord).rst = false) (h : step s = .next t) :
    SameParser (referenceParser s.arch (CycleIn.ofWord s.nextWord)) t.arch := by
  obtain ⟨hr', -⟩ | ⟨-, ht, he⟩ | ⟨-, hno, he⟩ := step_cases h
  · exact absurd hr' (by simp [hr])
  · have hs : referenceParser s.arch (CycleIn.ofWord s.nextWord) =
        streamElements (CycleIn.ofWord s.nextWord).inData s.arch := by
      simp [referenceParser, ht, releasesNow_of_byteTaken ht.1]
    rw [hs]
    exact streamElements_sameParser (busElements_sameParser_of_taken hr ht) he
  · rw [he]
    simp only [referenceParser, Bool.and_eq_true, Bool.not_eq_true', hno, if_false]
    split
    · rename_i hc
      rw [busElements_of_command (by simpa [or_comm] using hc)]
      rfl
    · rename_i hc
      simp only [Bool.or_eq_true, not_or, Bool.not_eq_true] at hc
      exact busElements_sameParser hr hc.2 hc.1

/-- The elements after a cycle are those of R280. -/
theorem step_arch_eq_referenceStep {s t : State} (h : step s = .next t) :
    t.arch = (referenceStep s.params s.arch (CycleIn.ofWord s.nextWord)).1 := by
  cases hr : (CycleIn.ofWord s.nextWord).rst
  · have hsame := step_sameParser hr h
    have hcontrol := controlRegistersRule s t h
    have hrej := rejectFlagRule s t h
    have hparser := referenceParser_control s.arch (CycleIn.ofWord s.nextWord)
    simp only [hr, Bool.false_eq_true, if_false, Bool.not_false, Bool.true_and, Prod.mk.injEq] at hcontrol hrej hparser
    obtain ⟨hen, hsync, hready, hie⟩ := hcontrol
    obtain ⟨hen', hsync', hready', hie'⟩ := hparser
    rw [SameParser, hen, hsync, hrej, hready, hie] at hsame
    rw [hsame, referenceStep_elements _ _ hr, writeControl, hen', hsync', hready', hie']
  · rw [referenceStep_elements_of_rst _ _ hr]
    rw [step_of_rst hr] at h
    cases h
    rfl

/-- The outputs of a cycle are those of R280. -/
theorem step_out_eq_referenceStep {s t : State} (h : step s = .next t) :
    t.out = (referenceStep s.params s.arch (CycleIn.ofWord s.nextWord)).2 := by
  obtain ⟨n, -, rfl⟩ := step_eq_next.1 h
  exact (referenceStep_outputs _ _ _).symm

end Sys2Proof.Machine
end

