-- ==== Sys2Proof/Proofs/SoftRestart.lean ====
section
/-! SUPPORT. Cycles that write one register and offer no byte (30_encoding.md rule R111), which the lines of
70_reset_and_hazards.md rule R273 are made of. -/

namespace Sys2Proof.Machine

/-- A `WR` line requests its write and nothing else (R109, R111). -/
theorem ofWord_writeLine (l : Loc) (v : Word) :
    CycleIn.ofWord (Line.bus (.wr l v)).word = writeInputs l.busAddr v := by
  rw [Line.word, BusLine.bits_eq_encode, ofWord_encode, BusLine.op, (decodeWrite_isBusRequest _ _).inputs]

/-- A run over a `WR` line is its bus operation, then the other lines. -/
theorem runElements_writeLine (p : Params) (l : Loc) (v : Word) (ws : List CycleWord) (a : Arch) :
    runElements p ((Line.bus (.wr l v)).word :: ws) a = runElements p ws (busElements a (writeInputs l.busAddr v)) := by
  rw [runElements_cons, ofWord_writeLine]
  rfl

/-- DISABLE (R110, R203). -/
theorem busElements_disable (a : Arch) : busElements a (writeInputs (Loc.reg .ctrl).busAddr 0) = { a with en := false } := rfl

/-- CLRREJ (R110, R210). -/
theorem busElements_clrRej (a : Arch) : busElements a (writeInputs (Loc.reg .status).busAddr 0x20) = { a with rej := false } := by
  have hrej : busElements a (writeInputs (Loc.reg .status).busAddr 0x20) = { a with rej := a.rej && false } := rfl
  rw [hrej, Bool.and_false]

/-- RELEASE if a frame is held and else ABORT takes effect (R110, R212). -/
theorem busElements_release_or_abort (a : Arch) :
    busElements a (writeInputs (Loc.reg .cmd).busAddr (if a.st = .hold then 1 else 2)) = backToHunt a := by
  refine busElements_of_command ?_
  by_cases hst : a.st = .hold
  · exact .inl (by simp [releasesNow, writeInputs, CycleIn.idle, Loc.busAddr, RegName.busAddr, hst])
  · exact .inr (by simp [abortsNow, writeInputs, CycleIn.idle, Loc.busAddr, RegName.busAddr, hst])

/-- The words of the three lines of R273. -/
theorem scriptWords_softRestart (p : Params) (a : Arch) :
    scriptWords p [.disable, if a.st = .hold then .release else .abort, .clrRej] =
      [(Line.bus (.wr (.reg .ctrl) 0)).word, (Line.bus (.wr (.reg .cmd) (if a.st = .hold then 1 else 2))).word,
        (Line.bus (.wr (.reg .status) 0x20)).word] := by
  split <;> rfl

end Sys2Proof.Machine
end

