-- ==== Sys2Proof/Proofs/ResetAndHazards.lean ====
section
/-! The statements of the reset and hazards family (70_reset_and_hazards.md rules R270 to R296). -/

namespace Sys2Proof.Machine

/-- Settles O8: a step is defined where R52 holds; its parser is that of R280, since a byte's effect on it does not depend on the
register writes beside it, and each control register follows its own rule. -/
theorem stepIsR280 : Obligations.StepIsR280 := by
  intro s h
  obtain ⟨t, ht⟩ := exists_step_next h
  exact ⟨t, ht, Prod.ext (step_arch_eq_referenceStep ht) (step_out_eq_referenceStep ht)⟩

/-- Settles O36: a reset cycle is RESET alone. -/
theorem resetCycle : Obligations.ResetCycle := by
  intro s hr
  refine ⟨_, step_of_rst hr, rfl, ?_⟩
  simp only [cycleOutputs, hr]
  exact ⟨rfl, rfl, rfl, rfl, rfl⟩

/-- Settles O47: the run is the chain of three register writes. -/
theorem softRestart : Obligations.SoftRestart := by
  intro s
  refine exists_runWords_iff.2 ?_
  rw [scriptWords_softRestart, runElements_writeLine, runElements_writeLine, runElements_writeLine, busElements_disable,
    busElements_release_or_abort, busElements_clrRej]
  rfl

/-- Settles O7: the first placed word is the next word, and its operations make the cycle. -/
theorem stepRunsTheDecodedOperations : Obligations.StepRunsTheDecodedOperations := by
  intro s w ws hs
  have hstep : step s = runCycle (decodeCycle w) { s with inputs := ws, cycle := s.cycle + 1 } := by
    rw [step, s.nextWord_of_inputs hs, State.sampleInputs, hs, List.tail_cons]
  refine ⟨fun b i hd => ?_, fun i hd => ?_⟩
  · rw [hstep, hd, runCycle_pair]
  · rw [hstep, hd, runCycle_single]

end Sys2Proof.Machine
end
